-- ==== Sys2Proof/Word.lean ====
section
/-! DEFINITION. The unit of stack storage (rule R21) and the program byte (rule R40). -/

namespace Sys2Proof

/-- A program byte (R40). -/
abbrev Byte := BitVec 8

/-- "a 256-bit unsigned integer value, the unit of stack storage" (R8, R21). Bit 0 is the least
significant bit and bit 255 the sign bit of the signed reading (D14). -/
abbrev Word := BitVec 256

end Sys2Proof
end

