-- ==== Sys2Proof/Syntax.lean ====
section
/-! DEFINITION. The 52 instructions of spec/opcode_table.json (R2, R63), one constructor per row. -/

namespace Sys2Proof

/-- An instruction of EFS-CORE. A PUSHn carries its immediate as the Word it stands for, the `n` bytes
read big-endian and zero-extended (R62); `Instr.wf` says that it fits `n` bytes (DESIGN CHOICE, safe, log 17).
The 204 unknown bytes (R64) are no rows of the table: the decoder rejects them by name and the step gives them their effect. -/
inductive Instr where
  | stop  -- STOP (R87)
  | add  -- ADD (R140)
  | mul  -- MUL (R141)
  | sub  -- SUB (R142)
  | div  -- DIV (R143)
  | sdiv  -- SDIV (R144)
  | mod  -- MOD (R145)
  | smod  -- SMOD (R146)
  | addmod  -- ADDMOD (R147)
  | mulmod  -- MULMOD (R148)
  | exp  -- EXP (R149)
  | signextend  -- SIGNEXTEND (R151)
  | lt  -- LT (R171)
  | gt  -- GT (R172)
  | slt  -- SLT (R173)
  | sgt  -- SGT (R174)
  | eq  -- EQ (R175)
  | iszero  -- ISZERO (R176)
  | pop  -- POP (R100)
  | push0  -- PUSH0 (R101)
  | push1 (imm : Word)  -- PUSH1 (R103)
  | push2 (imm : Word)  -- PUSH2 (R104)
  | push3 (imm : Word)  -- PUSH3 (R105)
  | push4 (imm : Word)  -- PUSH4 (R106)
  | push5 (imm : Word)  -- PUSH5 (R107)
  | push6 (imm : Word)  -- PUSH6 (R108)
  | push7 (imm : Word)  -- PUSH7 (R109)
  | push8 (imm : Word)  -- PUSH8 (R110)
  | push9 (imm : Word)  -- PUSH9 (R111)
  | push10 (imm : Word)  -- PUSH10 (R112)
  | push11 (imm : Word)  -- PUSH11 (R113)
  | push12 (imm : Word)  -- PUSH12 (R114)
  | push13 (imm : Word)  -- PUSH13 (R115)
  | push14 (imm : Word)  -- PUSH14 (R116)
  | push15 (imm : Word)  -- PUSH15 (R117)
  | push16 (imm : Word)  -- PUSH16 (R118)
  | push17 (imm : Word)  -- PUSH17 (R119)
  | push18 (imm : Word)  -- PUSH18 (R120)
  | push19 (imm : Word)  -- PUSH19 (R121)
  | push20 (imm : Word)  -- PUSH20 (R122)
  | push21 (imm : Word)  -- PUSH21 (R123)
  | push22 (imm : Word)  -- PUSH22 (R124)
  | push23 (imm : Word)  -- PUSH23 (R125)
  | push24 (imm : Word)  -- PUSH24 (R126)
  | push25 (imm : Word)  -- PUSH25 (R127)
  | push26 (imm : Word)  -- PUSH26 (R128)
  | push27 (imm : Word)  -- PUSH27 (R129)
  | push28 (imm : Word)  -- PUSH28 (R130)
  | push29 (imm : Word)  -- PUSH29 (R131)
  | push30 (imm : Word)  -- PUSH30 (R132)
  | push31 (imm : Word)  -- PUSH31 (R133)
  | push32 (imm : Word)  -- PUSH32 (R134)
  deriving DecidableEq, Repr

end Sys2Proof
end

