-- ==== Sys2Proof/WellFormed.lean ====
section
/-! DEFINITION. Which terms of `Instr` stand for an instruction the machine has. -/

namespace Sys2Proof

/-- The number of immediate bytes of an instruction: `n` for PUSHn, 0 for every other one (R60, R62). -/
def Instr.immLen : Instr → Nat
  | .stop => 0
  | .add => 0
  | .mul => 0
  | .sub => 0
  | .div => 0
  | .sdiv => 0
  | .mod => 0
  | .smod => 0
  | .addmod => 0
  | .mulmod => 0
  | .exp => 0
  | .signextend => 0
  | .lt => 0
  | .gt => 0
  | .slt => 0
  | .sgt => 0
  | .eq => 0
  | .iszero => 0
  | .pop => 0
  | .push0 => 0
  | .push1 _ => 1
  | .push2 _ => 2
  | .push3 _ => 3
  | .push4 _ => 4
  | .push5 _ => 5
  | .push6 _ => 6
  | .push7 _ => 7
  | .push8 _ => 8
  | .push9 _ => 9
  | .push10 _ => 10
  | .push11 _ => 11
  | .push12 _ => 12
  | .push13 _ => 13
  | .push14 _ => 14
  | .push15 _ => 15
  | .push16 _ => 16
  | .push17 _ => 17
  | .push18 _ => 18
  | .push19 _ => 19
  | .push20 _ => 20
  | .push21 _ => 21
  | .push22 _ => 22
  | .push23 _ => 23
  | .push24 _ => 24
  | .push25 _ => 25
  | .push26 _ => 26
  | .push27 _ => 27
  | .push28 _ => 28
  | .push29 _ => 29
  | .push30 _ => 30
  | .push31 _ => 31
  | .push32 _ => 32

/-- The immediate operand of an instruction, 0 where it has none (R62: "No other instruction has an
immediate"). -/
def Instr.imm : Instr → Word
  | .stop => 0
  | .add => 0
  | .mul => 0
  | .sub => 0
  | .div => 0
  | .sdiv => 0
  | .mod => 0
  | .smod => 0
  | .addmod => 0
  | .mulmod => 0
  | .exp => 0
  | .signextend => 0
  | .lt => 0
  | .gt => 0
  | .slt => 0
  | .sgt => 0
  | .eq => 0
  | .iszero => 0
  | .pop => 0
  | .push0 => 0
  | .push1 v => v
  | .push2 v => v
  | .push3 v => v
  | .push4 v => v
  | .push5 v => v
  | .push6 v => v
  | .push7 v => v
  | .push8 v => v
  | .push9 v => v
  | .push10 v => v
  | .push11 v => v
  | .push12 v => v
  | .push13 v => v
  | .push14 v => v
  | .push15 v => v
  | .push16 v => v
  | .push17 v => v
  | .push18 v => v
  | .push19 v => v
  | .push20 v => v
  | .push21 v => v
  | .push22 v => v
  | .push23 v => v
  | .push24 v => v
  | .push25 v => v
  | .push26 v => v
  | .push27 v => v
  | .push28 v => v
  | .push29 v => v
  | .push30 v => v
  | .push31 v => v
  | .push32 v => v

/-- The one well-formedness check: the immediate of a PUSHn is a number of `n` bytes,
`0 ≤ v < 2^(8n)` (R62, R67). -/
def Instr.wf (i : Instr) : Bool :=
  decide (i.imm.toNat < 256 ^ i.immLen)

end Sys2Proof
end

