-- ==== Sys2Proof/Decode.lean ====
section
/-! DEFINITION. From bytes to instructions and back (R60 to R66). -/

namespace Sys2Proof

/-- What the decoder reads from a byte sequence that begins at an opcode byte. -/
inductive Decoded where
  /-- an instruction, and the bytes after it -/
  | instr (i : Instr) (rest : List Byte)
  /-- no byte to decode: the program is exhausted (R81) -/
  | noBytes
  /-- a PUSHn opcode with fewer than `n` bytes after it (R102, R181) -/
  | missingImmediate (op : Byte)
  /-- a byte value that the opcode map does not define (R64) -/
  | unknownOpcode (op : Byte)
  deriving DecidableEq, Repr

/-- The number of immediate bytes that follow the opcode byte: "n = op − 0x5f" if
`0x60 ≤ op ≤ 0x7f`, else none (R60, R61). -/
def immCount (op : Byte) : Nat :=
  if 0x60 ≤ op.toNat ∧ op.toNat ≤ 0x7f then op.toNat - 0x5f else 0

/-- The length of the instruction that begins with `op` (R61). -/
def ilen (op : Byte) : Nat :=
  1 + immCount op

/-- The length of the longest instruction, PUSH32. -/
def maxInstrLen : Nat := 33

/-- The opcode map (R63): the instruction of an opcode byte and its assembled immediate, and none for the
204 unknown bytes (R64). -/
def instrOf (op : Byte) (imm : Word) : Option Instr :=
  match op with
  | 0x00#8 => some .stop
  | 0x01#8 => some .add
  | 0x02#8 => some .mul
  | 0x03#8 => some .sub
  | 0x04#8 => some .div
  | 0x05#8 => some .sdiv
  | 0x06#8 => some .mod
  | 0x07#8 => some .smod
  | 0x08#8 => some .addmod
  | 0x09#8 => some .mulmod
  | 0x0a#8 => some .exp
  | 0x0b#8 => some .signextend
  | 0x10#8 => some .lt
  | 0x11#8 => some .gt
  | 0x12#8 => some .slt
  | 0x13#8 => some .sgt
  | 0x14#8 => some .eq
  | 0x15#8 => some .iszero
  | 0x50#8 => some .pop
  | 0x5f#8 => some .push0
  | 0x60#8 => some (.push1 imm)
  | 0x61#8 => some (.push2 imm)
  | 0x62#8 => some (.push3 imm)
  | 0x63#8 => some (.push4 imm)
  | 0x64#8 => some (.push5 imm)
  | 0x65#8 => some (.push6 imm)
  | 0x66#8 => some (.push7 imm)
  | 0x67#8 => some (.push8 imm)
  | 0x68#8 => some (.push9 imm)
  | 0x69#8 => some (.push10 imm)
  | 0x6a#8 => some (.push11 imm)
  | 0x6b#8 => some (.push12 imm)
  | 0x6c#8 => some (.push13 imm)
  | 0x6d#8 => some (.push14 imm)
  | 0x6e#8 => some (.push15 imm)
  | 0x6f#8 => some (.push16 imm)
  | 0x70#8 => some (.push17 imm)
  | 0x71#8 => some (.push18 imm)
  | 0x72#8 => some (.push19 imm)
  | 0x73#8 => some (.push20 imm)
  | 0x74#8 => some (.push21 imm)
  | 0x75#8 => some (.push22 imm)
  | 0x76#8 => some (.push23 imm)
  | 0x77#8 => some (.push24 imm)
  | 0x78#8 => some (.push25 imm)
  | 0x79#8 => some (.push26 imm)
  | 0x7a#8 => some (.push27 imm)
  | 0x7b#8 => some (.push28 imm)
  | 0x7c#8 => some (.push29 imm)
  | 0x7d#8 => some (.push30 imm)
  | 0x7e#8 => some (.push31 imm)
  | 0x7f#8 => some (.push32 imm)
  | _ => none

/-- The bytes of a sequence read as one big-endian number, `acc` being what stands to their left (R12, R41). -/
def beNatFrom : Nat → List Byte → Nat
  | acc, [] => acc
  | acc, b :: bs => beNatFrom (acc * 256 + b.toNat) bs

/-- A byte sequence as one big-endian unsigned integer: the first byte is the most significant (R41). -/
def beNat (bs : List Byte) : Nat :=
  beNatFrom 0 bs

/-- The immediate of a PUSHn as a Word: the number, zero-extended (R62). -/
def beWord (bs : List Byte) : Word :=
  BitVec.ofNat 256 (beNat bs)

/-- Decoding, total on any bytes: the opcode byte alone fixes the length (R61) and the instruction (R63);
the bytes after it are the immediate of a PUSHn and nothing else (R62). -/
def decode : List Byte → Decoded
  | [] => .noBytes
  | op :: tail =>
    if tail.length < immCount op then .missingImmediate op
    else
      match instrOf op (beWord (tail.take (immCount op))) with
      | some i => .instr i (tail.drop (immCount op))
      | none => .unknownOpcode op

/-- The opcode byte of an instruction (R63). -/
def opcodeOf : Instr → Byte
  | .stop => 0x00
  | .add => 0x01
  | .mul => 0x02
  | .sub => 0x03
  | .div => 0x04
  | .sdiv => 0x05
  | .mod => 0x06
  | .smod => 0x07
  | .addmod => 0x08
  | .mulmod => 0x09
  | .exp => 0x0a
  | .signextend => 0x0b
  | .lt => 0x10
  | .gt => 0x11
  | .slt => 0x12
  | .sgt => 0x13
  | .eq => 0x14
  | .iszero => 0x15
  | .pop => 0x50
  | .push0 => 0x5f
  | .push1 _ => 0x60
  | .push2 _ => 0x61
  | .push3 _ => 0x62
  | .push4 _ => 0x63
  | .push5 _ => 0x64
  | .push6 _ => 0x65
  | .push7 _ => 0x66
  | .push8 _ => 0x67
  | .push9 _ => 0x68
  | .push10 _ => 0x69
  | .push11 _ => 0x6a
  | .push12 _ => 0x6b
  | .push13 _ => 0x6c
  | .push14 _ => 0x6d
  | .push15 _ => 0x6e
  | .push16 _ => 0x6f
  | .push17 _ => 0x70
  | .push18 _ => 0x71
  | .push19 _ => 0x72
  | .push20 _ => 0x73
  | .push21 _ => 0x74
  | .push22 _ => 0x75
  | .push23 _ => 0x76
  | .push24 _ => 0x77
  | .push25 _ => 0x78
  | .push26 _ => 0x79
  | .push27 _ => 0x7a
  | .push28 _ => 0x7b
  | .push29 _ => 0x7c
  | .push30 _ => 0x7d
  | .push31 _ => 0x7e
  | .push32 _ => 0x7f

/-- The low `n` bytes of a number, most significant first (R60 Format P, R67). -/
def beBytes : Nat → Nat → List Byte
  | 0, _ => []
  | n + 1, v => BitVec.ofNat 8 (v / 256 ^ n) :: beBytes n v

/-- The bytes of a well-formed instruction in the order they stand in the program (R60, R67). -/
def encode (i : Instr) : List Byte :=
  opcodeOf i :: beBytes i.immLen i.imm.toNat

/-- The low `n` bytes of a number, least significant first. -/
def leBytes : Nat → Nat → List Byte
  | 0, _ => []
  | n + 1, w => BitVec.ofNat 8 w :: leBytes n (w / 256)

/-- The bytes of an instruction whose bits are numbered as spec/opcode_table.json numbers them: byte `k`
is bits `8k+7..8k`, every bit from `nbits` up is 0, up to the longest instruction. -/
def tableBytes (nbits w : Nat) : List Byte :=
  leBytes maxInstrLen (w % 2 ^ nbits)

/-- The instruction the decoder reads from an instruction whose bits are `w`, numbered as
spec/opcode_table.json numbers them. -/
def decodeTableWord (nbits w : Nat) : Option Instr :=
  match decode (tableBytes nbits w) with
  | .instr i _ => some i
  | .noBytes => none
  | .missingImmediate _ => none
  | .unknownOpcode _ => none

end Sys2Proof
end

