-- ==== Sys2Proof/Config.lean ====
section
/-! DEFINITION. The parameters of the hardware (R7). Nothing else is parameterised, and no instruction has an
undefined result, so there is no free value. -/

namespace Sys2Proof

/-- What an implementation fixes (R7); both behaviours of D1 and D2 are kept: DESIGN CHOICE, safe (log 5).
A parameter that can be infinite is `none` when it is. -/
structure Config where
  /-- STACK_DEPTH, OPEN (D3): the most Words the stack holds -/
  stackDepth : Option Nat
  /-- PC_WIDTH, OPEN (D5): the bits of the program counter -/
  pcWidth : Option Nat
  /-- UNKNOWN_OPCODE_FAILS (D2): an unknown opcode is a failure and not a no-op -/
  unknownOpcodeFails : Bool
  /-- STOP_UNREVERSED (D1): after a STOP the result port shows the stack bottom first -/
  stopUnreversed : Bool
  deriving DecidableEq, Repr

/-- The last column of R7 for the OPEN parameters and the decided value for the other two. DESIGN CHOICE (log 4). -/
def Config.standard : Config where
  stackDepth := none
  pcWidth := none
  unknownOpcodeFails := false
  stopUnreversed := false

end Sys2Proof
end

