-- ==== Sys2Proof/Machine/State.lean ====
section
/-! DEFINITION. The state of the machine (R20), the state after reset (R32), and the reasons a step can stop. -/

namespace Sys2Proof.Machine

/-- STATUS[0]: whether the engine executes (R28). -/
inductive Run where
  | running
  | halted
  deriving DecidableEq, Repr

/-- STATUS[4:2]: why the engine halted (R28). Code 7 is never produced and has no name (U11). -/
inductive Cause where
  | none
  | stop
  | endOfCode
  | truncatedPush
  | stackUnderflow
  | stackOverflow
  | unknownOpcode
  deriving DecidableEq, Repr

/-- The code space (R40) as the cells that differ from an unlisted byte, addresses strictly rising. -/
abbrev Memory := List Host.Cell

/-- The machine's state. The first five fields are the record of R20. The last three are the inputs of the
step function (R30), which the host fixes before the run and no step writes: DESIGN CHOICE, safe (log 2). -/
structure State where
  /-- the byte index of the next instruction (R25) -/
  pc : Nat
  /-- the operand stack, the top `S[0]` first (R22, R12); DEDUCED, safe (log 1) -/
  stack : List Word
  /-- STATUS[0] (R28) -/
  run : Run
  /-- STATUS[1] (R28) -/
  success : Bool
  /-- STATUS[4:2] (R28) -/
  cause : Cause
  /-- CODE, the program bytes (R40) -/
  code : Memory
  /-- LEN, the length of the program in bytes (R44) -/
  len : Nat
  /-- the parameters of R7 -/
  cfg : Config
  deriving DecidableEq, Repr

/-- The machine right after reset (R32), with the parameters of R7 at the document's values and no program
supplied yet: CODE is the host's to supply (R212). DESIGN CHOICE, unsafe for a claim about this state alone (logs 4 and
10): the spec gives the parameters and the program no reset value. -/
def State.reset : State where
  pc := 0
  stack := []
  run := .running
  success := false
  cause := .none
  code := []
  len := 0
  cfg := Config.standard

/-- A step of this hardware never ends in a fault: "every RUNNING state has exactly one next state … and every
HALTED state steps to itself" (spec/93_implementation_defined.md, R80). The failures of R180 are defined halts
(R194) and so next states. Nothing raises a fault, so there is no reason to name; DEDUCED, safe (log 15). -/
inductive Fault where
  deriving DecidableEq, Repr

/-- Why a step is refused. -/
inductive Refusal where
  /-- Raised by an arm of `exec` for an instruction without a meaning; no arm of this model does. Safe. -/
  | notModelled (mnemonic : String)
  /-- Raised by `step` in a RUNNING state whose program is longer than `2^PC_WIDTH − 1` bytes, PC_WIDTH being
  finite: "a longer program is refused" (D5, U6). DESIGN CHOICE, safe (log 7): nothing is claimed of such a run. -/
  | programTooLong
  deriving DecidableEq, Repr

/-- What an instruction answers. -/
abbrev Answer := Host.Outcome State Fault Refusal

end Sys2Proof.Machine
end

