-- ==== Sys2Proof/Machine/Alu.lean ====
section
/-! DEFINITION. The ALU: the integer helpers of R9 to R11 and one pure function of the popped Words per
instruction (R83). Operands are converted to integers, the result is computed exactly, and `wrap` narrows it. -/

namespace Sys2Proof.Machine

/-- `wrap(z)`: the integer reduced modulo 2^256 into a Word (R9). -/
def wrap (z : Int) : Word :=
  BitVec.ofInt 256 z

/-- `sgn(w)`, the document's normalize: the two's-complement reading of a Word (R10). -/
def sgn (w : Word) : Int :=
  if w.toNat < 2 ^ 255 then (w.toNat : Int) else (w.toNat : Int) - 2 ^ 256

/-- `tdiv(x, y)`: the quotient truncated toward zero (R11). -/
def tdiv (x y : Int) : Int :=
  x.sign * y.sign * ((x.natAbs / y.natAbs : Nat) : Int)

/-- `trem(x, y) = x − tdiv(x, y) * y` (R11). -/
def trem (x y : Int) : Int :=
  x - tdiv x y * y

/-- `bool(p)`: the Word 1 if `p` holds, else the Word 0 (R11). -/
def boolWord (p : Bool) : Word :=
  if p then 1 else 0

/-- R140. -/
def aluAdd (a b : Word) : Word :=
  wrap ((a.toNat : Int) + b.toNat)

/-- R141. -/
def aluMul (a b : Word) : Word :=
  wrap ((a.toNat : Int) * b.toNat)

/-- R142: a negative difference has 2^256 added. -/
def aluSub (a b : Word) : Word :=
  wrap ((a.toNat : Int) - b.toNat)

/-- R143: the floor of the unsigned quotient; a zero divisor gives 0. -/
def aluDiv (a b : Word) : Word :=
  if b = 0 then 0 else wrap ((a.toNat / b.toNat : Nat) : Int)

/-- R144: the signed quotient truncated toward zero; a zero divisor gives 0. -/
def aluSdiv (a b : Word) : Word :=
  if b = 0 then 0 else wrap (tdiv (sgn a) (sgn b))

/-- R145: the unsigned remainder; a zero modulus gives 0. -/
def aluMod (a b : Word) : Word :=
  if b = 0 then 0 else wrap ((a.toNat % b.toNat : Nat) : Int)

/-- R146: the signed remainder, its sign the dividend's; a zero modulus gives 0. -/
def aluSmod (a b : Word) : Word :=
  if b = 0 then 0 else wrap (trem (sgn a) (sgn b))

/-- R147: the sum is reduced to 256 bits first, its carry is lost, and then taken modulo `c` (C8). -/
def aluAddmod (a b c : Word) : Word :=
  if c = 0 then 0 else wrap (((wrap ((a.toNat : Int) + b.toNat)).toNat % c.toNat : Nat) : Int)

/-- R148: the exact product, up to 512 bits, modulo `c`. -/
def aluMulmod (a b c : Word) : Word :=
  if c = 0 then 0 else wrap ((a.toNat * b.toNat % c.toNat : Nat) : Int)

/-- Square and multiply modulo 2^256 over at most `fuel` bits of the exponent. -/
def powWrap : Nat → Word → Nat → Word
  | 0, _, _ => 1
  | fuel + 1, base, e =>
    if e = 0 then 1
    else if e % 2 = 1 then base * powWrap fuel (base * base) (e / 2)
    else powWrap fuel (base * base) (e / 2)

/-- R149: `wrap(a ^ b)`, computed by square-and-multiply with wrap after each product, which R149 allows; the exponent
is the full unsigned Word, 256 bits. DEDUCED, safe (log 12). -/
def aluExp (a b : Word) : Word :=
  powWrap 256 a b.toNat

/-- R151: the selector is compared on the whole Word (R218); below 31, every bit above `t = 8(a+1) − 1` becomes a copy
of bit `t` of `b` (D16). -/
def aluSignextend (a b : Word) : Word :=
  if 31 ≤ a.toNat then b
  else
    let t := 8 * (a.toNat + 1) - 1
    let low := b.toNat % 2 ^ (t + 1)
    if b.getLsbD t then BitVec.ofNat 256 (low + (2 ^ 256 - 2 ^ (t + 1))) else BitVec.ofNat 256 low

/-- R171: unsigned. -/
def aluLt (a b : Word) : Word :=
  boolWord (decide (a.toNat < b.toNat))

/-- R172: unsigned. -/
def aluGt (a b : Word) : Word :=
  boolWord (decide (a.toNat > b.toNat))

/-- R173: signed. -/
def aluSlt (a b : Word) : Word :=
  boolWord (decide (sgn a < sgn b))

/-- R174: signed. -/
def aluSgt (a b : Word) : Word :=
  boolWord (decide (sgn a > sgn b))

/-- R175: all 256 bits equal; the signed reading decides the same (C6). -/
def aluEq (a b : Word) : Word :=
  boolWord (decide (a = b))

/-- R176. -/
def aluIszero (a : Word) : Word :=
  boolWord (decide (a = 0))

end Sys2Proof.Machine
end

