-- ==== Sys2Proof/Machine/Ops.lean ====
section
/-! DEFINITION. The named operations over the code memory, the program counter, the stack and the status record:
fetching, halting, raising a failure, resetting. -/

namespace Sys2Proof.Machine

/-! ### The code memory -/

/-- What an address that no cell lists reads as. DESIGN CHOICE, unsafe in form (log 3): the spec gives no such value, and
no step reads an address at or past LEN. -/
def Memory.unlisted : Byte := 0

/-- The canonical form from address `lo` on: addresses strictly rising, no cell equal to an unlisted byte. -/
def Memory.wfFrom : Nat → Memory → Bool
  | _, [] => true
  | lo, (k, b) :: m => decide (lo ≤ k) && (b != Memory.unlisted) && Memory.wfFrom (k + 1) m

/-- The canonical form of a memory: equal memories are equal lists. -/
def Memory.wf (m : Memory) : Bool :=
  Memory.wfFrom 0 m

/-- The byte at an address. -/
def Memory.read : Memory → Nat → Byte
  | [], _ => Memory.unlisted
  | (k, b) :: m, a => if a = k then b else Memory.read m a

/-- A memory with the byte `b` at address `a`. Only the host writes the program (R40, R48). -/
def Memory.write : Memory → Nat → Byte → Memory
  | [], a, b => if b = Memory.unlisted then [] else [(a, b)]
  | (k, c) :: m, a, b =>
    if a < k then if b = Memory.unlisted then (k, c) :: m else (a, b) :: (k, c) :: m
    else if a = k then if b = Memory.unlisted then m else (k, b) :: m
    else (k, c) :: Memory.write m a b

/-- The `n` bytes from address `a` on. -/
def Memory.readRange (m : Memory) : Nat → Nat → List Byte
  | _, 0 => []
  | a, n + 1 => Memory.read m a :: Memory.readRange m (a + 1) n

/-- A memory with a byte sequence written from address `a` on. -/
def Memory.writeRange : Memory → Nat → List Byte → Memory
  | m, _, [] => m
  | m, a, b :: bs => Memory.writeRange (Memory.write m a b) (a + 1) bs

/-! ### Fetching -/

/-- The program bytes from `pc` on that an instruction can hold: `CODE[pc .. LEN−1]`, at most as many as the
longest instruction has. Nothing at or past LEN is read (R45); the list is empty exactly when `pc ≥ LEN`. -/
def State.fetchBytes (s : State) : List Byte :=
  Memory.readRange s.code s.pc (min (s.len - s.pc) maxInstrLen)

/-- "advance PC by 1", before anything else is examined (R82). DESIGN CHOICE, safe (log 16): the meanings make this
advance, so `exec` takes the state with `pc` at the opcode byte. -/
def State.fetched (s : State) : State :=
  { s with pc := s.pc + 1 }

/-- `pc <- pc + n`, past the immediate of a completed PUSHn (R102). -/
def State.advance (n : Nat) (s : State) : State :=
  { s with pc := s.pc + n }

/-- The host's duty for a finite PC_WIDTH, `LEN ≤ 2^PC_WIDTH − 1` (R25, D5). DESIGN CHOICE, safe (log 7): every step of a
RUNNING state checks it. -/
def State.codeFits (s : State) : Bool :=
  match s.cfg.pcWidth with
  | none => true
  | some w => decide (s.len ≤ 2 ^ w - 1)

/-! ### The stack -/

/-- The number of Words on the operand stack (R12). -/
def State.depth (s : State) : Nat :=
  s.stack.length

/-- `push(v)`: place a Word on top (R12). -/
def State.push (v : Word) (s : State) : State :=
  { s with stack := v :: s.stack }

/-- The stack is replaced; used by the operand forms, which have taken the operands apart. -/
def State.withStack (st : List Word) (s : State) : State :=
  { s with stack := st }

/-- `depth = STACK_DEPTH`; never true of an infinite STACK_DEPTH (R36, R183). DEDUCED, safe (log 8): the
equation is the rule's, also in states that no run reaches. -/
def State.full (s : State) : Bool :=
  match s.cfg.stackDepth with
  | none => false
  | some d => decide (s.depth = d)

/-! ### Halting, failing, resetting -/

/-- `halt(ok, cause)`: `run <- HALTED`, `success <- ok`, `cause <- cause` (R12, R28). -/
def State.halt (ok : Bool) (c : Cause) (s : State) : State :=
  { s with run := .halted, success := ok, cause := c }

/-- `raise <Failure>`: the one exception entry of this hardware. The run halts with `success = false` and the named
cause, and nothing else changes beyond the `pc <- p + 1` of the fetch (R187). There is no return from it but reset
(R189). -/
def raise (c : Cause) (s : State) : Answer :=
  .next (s.halt false c)

/-- Reset, applied by the host at any time: every item of R20 at its value of R32; CODE, LEN and the parameters are
the host's and stay (R210). DESIGN CHOICE (log 13): reset is an operation on a state and not an outcome of `step`. -/
def State.applyReset (s : State) : State :=
  { s with pc := 0, stack := [], run := .running, success := false, cause := .none }

/-- The host supplies a program and the parameters, then releases reset (R212, R213). DESIGN CHOICE (log 10): this is
how a program comes to run. -/
def State.load (cfg : Config) (bytes : List Byte) : State :=
  { State.reset with code := Memory.writeRange [] 0 bytes, len := bytes.length, cfg := cfg }

/-- A state with a byte sequence standing where the next step fetches, the program long enough to hold it and the
engine RUNNING: what it takes for the very next step to run those bytes. DESIGN CHOICE, safe (log 11). -/
def State.place (s : State) (bytes : List Byte) : State :=
  { s with
    code := Memory.writeRange s.code s.pc bytes
    len := max s.len (s.pc + bytes.length)
    run := .running
    success := false
    cause := .none }

end Sys2Proof.Machine
end

