-- ==== Sys2Proof/Machine/Operands.lean ====
section
/-! DEFINITION. The operand forms: how operands leave the stack and a result comes back (R84, R85, R86), and the
immediate form of PUSHn (R102). An answer is given for the state at the start of the step, `pc` at the opcode byte. -/

namespace Sys2Proof.Machine

/-- Arity 1, pushing one Word: the first pop is `a`. The arity is compared with the depth before any pop (R84). -/
def unary (f : Word → Word) (s : State) : Answer :=
  match s.stack with
  | a :: rest => .next (s.fetched.withStack (f a :: rest))
  | _ => raise .stackUnderflow s.fetched

/-- Arity 2, pushing one Word: `a` was on top, `b` beneath it (R85). -/
def binary (f : Word → Word → Word) (s : State) : Answer :=
  match s.stack with
  | a :: b :: rest => .next (s.fetched.withStack (f a b :: rest))
  | _ => raise .stackUnderflow s.fetched

/-- Arity 3, pushing one Word: `a` was on top, `b` beneath it, `c` third (R85). -/
def ternary (f : Word → Word → Word → Word) (s : State) : Answer :=
  match s.stack with
  | a :: b :: c :: rest => .next (s.fetched.withStack (f a b c :: rest))
  | _ => raise .stackUnderflow s.fetched

/-- Arity 1, pushing nothing: the popped Word is discarded (R100). -/
def discard (s : State) : Answer :=
  match s.stack with
  | _ :: rest => .next (s.fetched.withStack rest)
  | _ => raise .stackUnderflow s.fetched

/-- A push of a constant without immediate bytes (R101). -/
def pushConst (v : Word) (s : State) : Answer :=
  if s.full then raise .stackOverflow s.fetched
  else .next (s.fetched.push v)

/-- A push of an immediate of `n` bytes (R102): truncation is tested first, then the depth limit (R186). The strict
comparison is made on unbounded numbers, so `pc + n` cannot wrap (R216, R217). -/
def pushImm (n : Nat) (v : Word) (s : State) : Answer :=
  if s.len < s.fetched.pc + n then raise .truncatedPush s.fetched
  else if s.full then raise .stackOverflow s.fetched
  else .next ((s.fetched.push v).advance n)

end Sys2Proof.Machine
end

