-- ==== Sys2Proof/Machine/Arithmetic.lean ====
section
/-! DEFINITION. The arithmetic instructions, opcodes 0x01 to 0x0b (spec/42_arithmetic.md). -/

namespace Sys2Proof.Machine

/-- ADD (R140). -/
def execAdd (s : State) : Answer :=
  binary aluAdd s

/-- MUL (R141). -/
def execMul (s : State) : Answer :=
  binary aluMul s

/-- SUB (R142). -/
def execSub (s : State) : Answer :=
  binary aluSub s

/-- DIV (R143). -/
def execDiv (s : State) : Answer :=
  binary aluDiv s

/-- SDIV (R144). -/
def execSdiv (s : State) : Answer :=
  binary aluSdiv s

/-- MOD (R145). -/
def execMod (s : State) : Answer :=
  binary aluMod s

/-- SMOD (R146). -/
def execSmod (s : State) : Answer :=
  binary aluSmod s

/-- ADDMOD (R147). -/
def execAddmod (s : State) : Answer :=
  ternary aluAddmod s

/-- MULMOD (R148). -/
def execMulmod (s : State) : Answer :=
  ternary aluMulmod s

/-- EXP (R149). -/
def execExp (s : State) : Answer :=
  binary aluExp s

/-- SIGNEXTEND (R151). -/
def execSignextend (s : State) : Answer :=
  binary aluSignextend s

end Sys2Proof.Machine
end

