-- ==== Sys2Proof/Machine/Comparison.lean ====
section
/-! DEFINITION. The comparison instructions, opcodes 0x10 to 0x15 (spec/43_comparison.md). A comparison sets no flag:
it pushes 1 or 0 (R170). -/

namespace Sys2Proof.Machine

/-- LT (R171). -/
def execLt (s : State) : Answer :=
  binary aluLt s

/-- GT (R172). -/
def execGt (s : State) : Answer :=
  binary aluGt s

/-- SLT (R173). -/
def execSlt (s : State) : Answer :=
  binary aluSlt s

/-- SGT (R174). -/
def execSgt (s : State) : Answer :=
  binary aluSgt s

/-- EQ (R175). -/
def execEq (s : State) : Answer :=
  binary aluEq s

/-- ISZERO (R176). -/
def execIszero (s : State) : Answer :=
  unary aluIszero s

end Sys2Proof.Machine
end

