-- ==== Sys2Proof/Machine/StackOps.lean ====
section
/-! DEFINITION. The stack instructions POP, PUSH0 and PUSH1 to PUSH32 (spec/41_stack_ops.md). -/

namespace Sys2Proof.Machine

/-- POP (R100). -/
def execPop (s : State) : Answer :=
  discard s

/-- PUSH0 (R101): no immediate, so it cannot be truncated. -/
def execPush0 (s : State) : Answer :=
  pushConst 0 s

/-- PUSH1 (R103). -/
def execPush1 (imm : Word) (s : State) : Answer :=
  pushImm 1 imm s

/-- PUSH2 (R104). -/
def execPush2 (imm : Word) (s : State) : Answer :=
  pushImm 2 imm s

/-- PUSH3 (R105). -/
def execPush3 (imm : Word) (s : State) : Answer :=
  pushImm 3 imm s

/-- PUSH4 (R106). -/
def execPush4 (imm : Word) (s : State) : Answer :=
  pushImm 4 imm s

/-- PUSH5 (R107). -/
def execPush5 (imm : Word) (s : State) : Answer :=
  pushImm 5 imm s

/-- PUSH6 (R108). -/
def execPush6 (imm : Word) (s : State) : Answer :=
  pushImm 6 imm s

/-- PUSH7 (R109). -/
def execPush7 (imm : Word) (s : State) : Answer :=
  pushImm 7 imm s

/-- PUSH8 (R110). -/
def execPush8 (imm : Word) (s : State) : Answer :=
  pushImm 8 imm s

/-- PUSH9 (R111). -/
def execPush9 (imm : Word) (s : State) : Answer :=
  pushImm 9 imm s

/-- PUSH10 (R112). -/
def execPush10 (imm : Word) (s : State) : Answer :=
  pushImm 10 imm s

/-- PUSH11 (R113). -/
def execPush11 (imm : Word) (s : State) : Answer :=
  pushImm 11 imm s

/-- PUSH12 (R114). -/
def execPush12 (imm : Word) (s : State) : Answer :=
  pushImm 12 imm s

/-- PUSH13 (R115). -/
def execPush13 (imm : Word) (s : State) : Answer :=
  pushImm 13 imm s

/-- PUSH14 (R116). -/
def execPush14 (imm : Word) (s : State) : Answer :=
  pushImm 14 imm s

/-- PUSH15 (R117). -/
def execPush15 (imm : Word) (s : State) : Answer :=
  pushImm 15 imm s

/-- PUSH16 (R118). -/
def execPush16 (imm : Word) (s : State) : Answer :=
  pushImm 16 imm s

/-- PUSH17 (R119). -/
def execPush17 (imm : Word) (s : State) : Answer :=
  pushImm 17 imm s

/-- PUSH18 (R120). -/
def execPush18 (imm : Word) (s : State) : Answer :=
  pushImm 18 imm s

/-- PUSH19 (R121). -/
def execPush19 (imm : Word) (s : State) : Answer :=
  pushImm 19 imm s

/-- PUSH20 (R122). -/
def execPush20 (imm : Word) (s : State) : Answer :=
  pushImm 20 imm s

/-- PUSH21 (R123). -/
def execPush21 (imm : Word) (s : State) : Answer :=
  pushImm 21 imm s

/-- PUSH22 (R124). -/
def execPush22 (imm : Word) (s : State) : Answer :=
  pushImm 22 imm s

/-- PUSH23 (R125). -/
def execPush23 (imm : Word) (s : State) : Answer :=
  pushImm 23 imm s

/-- PUSH24 (R126). -/
def execPush24 (imm : Word) (s : State) : Answer :=
  pushImm 24 imm s

/-- PUSH25 (R127). -/
def execPush25 (imm : Word) (s : State) : Answer :=
  pushImm 25 imm s

/-- PUSH26 (R128). -/
def execPush26 (imm : Word) (s : State) : Answer :=
  pushImm 26 imm s

/-- PUSH27 (R129). -/
def execPush27 (imm : Word) (s : State) : Answer :=
  pushImm 27 imm s

/-- PUSH28 (R130). -/
def execPush28 (imm : Word) (s : State) : Answer :=
  pushImm 28 imm s

/-- PUSH29 (R131). -/
def execPush29 (imm : Word) (s : State) : Answer :=
  pushImm 29 imm s

/-- PUSH30 (R132). -/
def execPush30 (imm : Word) (s : State) : Answer :=
  pushImm 30 imm s

/-- PUSH31 (R133). -/
def execPush31 (imm : Word) (s : State) : Answer :=
  pushImm 31 imm s

/-- PUSH32 (R134). -/
def execPush32 (imm : Word) (s : State) : Answer :=
  pushImm 32 imm s

end Sys2Proof.Machine
end

