-- ==== Sys2Proof/Machine/System.lean ====
section
/-! DEFINITION. STOP (R87) and what a step does where no instruction of the table stands:
end of code (R81), a truncated push (R181), an unknown opcode (R88). -/

namespace Sys2Proof.Machine

/-- STOP (R87): halts with success; the stack is unchanged. -/
def execStop (s : State) : Answer :=
  .next (s.fetched.halt true .stop)

/-- End of code (R81, D8): nothing is fetched, `pc` and the stack are unchanged, the run halts with success. -/
def endOfCode (s : State) : Answer :=
  .next (s.halt true .endOfCode)

/-- A PUSHn whose immediate runs past the end of the program (R181): tested before anything else, so no immediate byte
is read and the depth limit plays no part (R186). DESIGN CHOICE, safe (log 9): the decoder recognises it. -/
def truncatedPush (s : State) : Answer :=
  raise .truncatedPush s.fetched

/-- A byte outside the opcode table (R88): a one-byte no-op, or a failure with UNKNOWN_OPCODE_FAILS (R184). -/
def unknownOpcode (s : State) : Answer :=
  if s.cfg.unknownOpcodeFails then raise .unknownOpcode s.fetched
  else .next s.fetched

end Sys2Proof.Machine
end

