-- ==== Sys2Proof/Machine/Step.lean ====
section
/-! DEFINITION. The step (R80). -/

namespace Sys2Proof.Machine

/-- One step. A HALTED state steps to itself (R93; DEDUCED, safe, log 6). A RUNNING one fetches, decodes and executes one
instruction, or finds none of the table: the end of the code (R81), a truncated push (R181), an unknown opcode (R88). A program longer
than a finite PC_WIDTH can address is refused (U6). -/
def step (s : State) : Host.Outcome State Fault Refusal :=
  match s.run with
  | .halted => .next s
  | .running =>
    if s.codeFits then
      match decode s.fetchBytes with
      | .instr i _ => exec i s
      | .noBytes => endOfCode s
      | .missingImmediate _ => truncatedPush s
      | .unknownOpcode _ => unknownOpcode s
    else .refused .programTooLong

/-- `s` with the instruction whose bits are `w` (numbered as spec/opcode_table.json numbers them) standing where the
next step fetches. -/
def State.withFetchWord (s : State) (nbits w : Nat) : State :=
  s.place (tableBytes nbits w)

end Sys2Proof.Machine
end

