-- ==== Sys2Proof/Machine/Flags.lean ====
section
/-! DEFINITION. The hardware has no condition codes (R29). What it has is the status record, whose byte view is here
(R28). No instruction reads or writes it by name. -/

namespace Sys2Proof.Machine

/-- The code of a cause (R28, D6). -/
def Cause.code : Cause → Nat
  | .none => 0
  | .stop => 1
  | .endOfCode => 2
  | .truncatedPush => 3
  | .stackUnderflow => 4
  | .stackOverflow => 5
  | .unknownOpcode => 6

/-- STATUS[0]: 0 = RUNNING, 1 = HALTED (R28). -/
def Run.bit : Run → Nat
  | .running => 0
  | .halted => 1

/-- The STATUS byte: run in bit 0, success in bit 1, cause in bits 4:2, bits 7:5 read as 0 (R28). -/
def State.status (s : State) : Byte :=
  BitVec.ofNat 8 (s.run.bit + 2 * s.success.toNat + 4 * s.cause.code)

end Sys2Proof.Machine
end

