-- ==== Sys2Proof/Machine/Result.lean ====
section
/-! DEFINITION. What the host sees: the Execution Result (R31), the result port (R213), and a whole run as a function
of the program (R90). -/

namespace Sys2Proof.Machine

/-- The order of the reported Words: top first, and bottom first only after a STOP under STOP_UNREVERSED (R31, D1). -/
def State.words (s : State) : List Word :=
  if s.cfg.stopUnreversed ∧ s.cause = .stop then s.stack.reverse else s.stack

/-- The Execution Result `(words, success)`, defined only when HALTED (R31). -/
def State.result (s : State) : Option (List Word × Bool) :=
  match s.run with
  | .running => none
  | .halted => some (s.words, s.success)

/-- The result port: `words[i]` when HALTED and `i < depth`; no specified value otherwise (R213, U5), which is none:
DEDUCED, safe (log 14). -/
def State.resWord (s : State) (i : Nat) : Option Word :=
  match s.run with
  | .running => none
  | .halted => s.words[i]?

/-- `execute(CODE)` (R90): from reset with the program supplied, step until HALTED, give the Execution Result. `LEN + 1`
steps are enough (R89), and a HALTED state steps to itself (R93). None if the program is refused. -/
def execute (cfg : Config) (bytes : List Byte) : Option (List Word × Bool) :=
  match Sys2Proof.core.run (bytes.length + 1) (State.load cfg bytes) with
  | .next s => s.result
  | .fault _ => none
  | .refused _ => none

end Sys2Proof.Machine
end

