-- ==== Sys2Proof/Safety.lean ====
section
/-! DEFINITION. What counts as a safe run, and the invariants of the machine, in the terms claims use. -/

namespace Sys2Proof

/-- The number of Words an instruction pops, the column `arity` of R83. -/
def Instr.pops : Instr → Nat
  | .stop => 0
  | .add => 2
  | .mul => 2
  | .sub => 2
  | .div => 2
  | .sdiv => 2
  | .mod => 2
  | .smod => 2
  | .addmod => 3
  | .mulmod => 3
  | .exp => 2
  | .signextend => 2
  | .lt => 2
  | .gt => 2
  | .slt => 2
  | .sgt => 2
  | .eq => 2
  | .iszero => 1
  | .pop => 1
  | .push0 => 0
  | .push1 _ => 0
  | .push2 _ => 0
  | .push3 _ => 0
  | .push4 _ => 0
  | .push5 _ => 0
  | .push6 _ => 0
  | .push7 _ => 0
  | .push8 _ => 0
  | .push9 _ => 0
  | .push10 _ => 0
  | .push11 _ => 0
  | .push12 _ => 0
  | .push13 _ => 0
  | .push14 _ => 0
  | .push15 _ => 0
  | .push16 _ => 0
  | .push17 _ => 0
  | .push18 _ => 0
  | .push19 _ => 0
  | .push20 _ => 0
  | .push21 _ => 0
  | .push22 _ => 0
  | .push23 _ => 0
  | .push24 _ => 0
  | .push25 _ => 0
  | .push26 _ => 0
  | .push27 _ => 0
  | .push28 _ => 0
  | .push29 _ => 0
  | .push30 _ => 0
  | .push31 _ => 0
  | .push32 _ => 0

/-- The number of Words a completed instruction pushes, the column `pushes` of R63 and R83. -/
def Instr.pushes : Instr → Nat
  | .stop => 0
  | .add => 1
  | .mul => 1
  | .sub => 1
  | .div => 1
  | .sdiv => 1
  | .mod => 1
  | .smod => 1
  | .addmod => 1
  | .mulmod => 1
  | .exp => 1
  | .signextend => 1
  | .lt => 1
  | .gt => 1
  | .slt => 1
  | .sgt => 1
  | .eq => 1
  | .iszero => 1
  | .pop => 0
  | .push0 => 1
  | .push1 _ => 1
  | .push2 _ => 1
  | .push3 _ => 1
  | .push4 _ => 1
  | .push5 _ => 1
  | .push6 _ => 1
  | .push7 _ => 1
  | .push8 _ => 1
  | .push9 _ => 1
  | .push10 _ => 1
  | .push11 _ => 1
  | .push12 _ => 1
  | .push13 _ => 1
  | .push14 _ => 1
  | .push15 _ => 1
  | .push16 _ => 1
  | .push17 _ => 1
  | .push18 _ => 1
  | .push19 _ => 1
  | .push20 _ => 1
  | .push21 _ => 1
  | .push22 _ => 1
  | .push23 _ => 1
  | .push24 _ => 1
  | .push25 _ => 1
  | .push26 _ => 1
  | .push27 _ => 1
  | .push28 _ => 1
  | .push29 _ => 1
  | .push30 _ => 1
  | .push31 _ => 1
  | .push32 _ => 1

end Sys2Proof

namespace Sys2Proof.Machine

/-- The failure causes (R180); the other two halts and NONE are no failures. -/
def Cause.isFailure : Cause → Bool
  | .none => false
  | .stop => false
  | .endOfCode => false
  | .truncatedPush => true
  | .stackUnderflow => true
  | .stackOverflow => true
  | .unknownOpcode => true

/-- "a claim that wants the program does not go wrong states success = true in its postcondition" (R194). -/
def State.Safe (s : State) : Prop :=
  s.run = .halted → s.success = true

/-- The status record is one that a run produces (R28, R193): NONE and not a success while RUNNING; a cause when
HALTED, which is a success exactly when it is no failure; the two optional failures only under their parameters. -/
def State.StatusOk (s : State) : Prop :=
  (s.run = .running → s.success = false ∧ s.cause = .none) ∧
  (s.run = .halted → s.cause ≠ .none ∧ s.success = !s.cause.isFailure) ∧
  (s.cause = .stackOverflow → s.cfg.stackDepth.isSome = true) ∧
  (s.cause = .unknownOpcode → s.cfg.unknownOpcodeFails = true)

/-- A finite STACK_DEPTH bounds the stack (R36). -/
def State.DepthOk (s : State) : Prop :=
  ∀ d, s.cfg.stackDepth = some d → s.depth ≤ d

/-- The code memory is in canonical form and lists nothing at or past LEN (R44). -/
def State.CodeOk (s : State) : Prop :=
  s.code.wf = true ∧ ∀ c ∈ s.code, c.1 < s.len

/-- The invariant of a run: the status record, the depth limit, the code memory, and `pc ≤ LEN` (R27). -/
structure State.Inv (s : State) : Prop where
  status : s.StatusOk
  depth : s.DepthOk
  code : s.CodeOk
  pc : s.pc ≤ s.len

end Sys2Proof.Machine
end

