-- ==== Sys2Proof/Certificates/Slice0/Obligations.lean ====
section
/-! DEFINITION. The statements for the provers. They are written in the terms of the spec's rules: a next state is
spelled out field by field, a Word's value with `BitVec.toNat` and `BitVec.toInt`, an immediate as the sum of R12. -/

namespace Sys2Proof.Claims

open Sys2Proof Sys2Proof.Machine

/-- The program byte `CODE[a]`. -/
def byteAt (s : State) (a : Nat) : Byte :=
  Memory.read s.code a

/-- The opcode byte of the step, as a number. -/
def opAt (s : State) : Nat :=
  (byteAt s s.pc).toNat

/-- `MemRead(q, n)` as R12 writes it: the sum over `i < n` of `CODE[q+i] * 256^(n−1−i)`. -/
def memRead (s : State) (q n : Nat) : Nat :=
  ∑ i ∈ Finset.range n, (byteAt s (q + i)).toNat * 256 ^ (n - 1 - i)

/-- A RUNNING state whose program the host was allowed to supply (R25, R212). -/
def Ready (s : State) : Prop :=
  s.run = .running ∧ ∀ w, s.cfg.pcWidth = some w → s.len ≤ 2 ^ w - 1

/-- What a failure leaves (R187): `pc` at `p + 1`, HALTED, no success, the cause, and nothing else changed. -/
def failed (c : Cause) (s : State) : State :=
  { s with pc := s.pc + 1, run := .halted, success := false, cause := c }

/-- The byte values that the opcode map does not define (R64). -/
abbrev IsUnknown (b : Byte) : Prop :=
  (0x0c ≤ b.toNat ∧ b.toNat ≤ 0x0f) ∨ (0x16 ≤ b.toNat ∧ b.toNat ≤ 0x4f) ∨
  (0x51 ≤ b.toNat ∧ b.toNat ≤ 0x5e) ∨ (0x80 ≤ b.toNat ∧ b.toNat ≤ 0xff)

/-- The column `arity` of R83, by opcode byte. -/
def arityOf (op : Nat) : Nat :=
  if op = 0x15 ∨ op = 0x50 then 1
  else if op = 0x08 ∨ op = 0x09 then 3
  else if (0x01 ≤ op ∧ op ≤ 0x07) ∨ op = 0x0a ∨ op = 0x0b ∨ (0x10 ≤ op ∧ op ≤ 0x14) then 2
  else 0

/-- The Word of a truth value (R11). -/
abbrev truth (p : Prop) [Decidable p] : Word :=
  if p then 1 else 0

/-- The rule of an instruction of Format O with arity 1: its encoding, its result and the whole state after it, its
underflow. -/
def UnaryRule (i : Instr) (op : Byte) (f : Word → Word) : Prop :=
  (encode i = [op] ∧ ∀ tail, decode (op :: tail) = .instr i tail) ∧
  (∀ (s : State) (a : Word) (rest : List Word), s.stack = a :: rest →
    exec i s = .next { s with pc := s.pc + 1, stack := f a :: rest }) ∧
  (∀ s : State, s.stack.length < 1 → exec i s = .next (failed .stackUnderflow s))

/-- The rule of an instruction of Format O with arity 2; `a` is the Word on top, `b` the one beneath it. -/
def BinaryRule (i : Instr) (op : Byte) (f : Word → Word → Word) : Prop :=
  (encode i = [op] ∧ ∀ tail, decode (op :: tail) = .instr i tail) ∧
  (∀ (s : State) (a b : Word) (rest : List Word), s.stack = a :: b :: rest →
    exec i s = .next { s with pc := s.pc + 1, stack := f a b :: rest }) ∧
  (∀ s : State, s.stack.length < 2 → exec i s = .next (failed .stackUnderflow s))

/-- The rule of an instruction of Format O with arity 3; `a` is the Word on top. -/
def TernaryRule (i : Instr) (op : Byte) (f : Word → Word → Word → Word) : Prop :=
  (encode i = [op] ∧ ∀ tail, decode (op :: tail) = .instr i tail) ∧
  (∀ (s : State) (a b c : Word) (rest : List Word), s.stack = a :: b :: c :: rest →
    exec i s = .next { s with pc := s.pc + 1, stack := f a b c :: rest }) ∧
  (∀ s : State, s.stack.length < 3 → exec i s = .next (failed .stackUnderflow s))

/-- The rule of PUSHn for one `n` (R102 to R134): the bytes of Format P both ways, the range of the value, and what
the instruction does truncated, on a full stack, and otherwise. -/
def PushRule (i : Word → Instr) (n : Nat) : Prop :=
  (∀ v : Word, v.toNat < 2 ^ (8 * n) →
    encode (i v) = BitVec.ofNat 8 (0x5f + n) ::
      (List.range n).map fun k => BitVec.ofNat 8 (v.toNat / 256 ^ (n - 1 - k))) ∧
  (∀ imm rest : List Byte, imm.length = n →
    ∃ v : Word, v.toNat = ∑ k ∈ Finset.range n, (imm.getD k 0).toNat * 256 ^ (n - 1 - k) ∧
      v.toNat < 2 ^ (8 * n) ∧ decode (BitVec.ofNat 8 (0x5f + n) :: (imm ++ rest)) = .instr (i v) rest) ∧
  (∀ (s : State) (v : Word),
    (s.len < s.pc + 1 + n → exec (i v) s = .next (failed .truncatedPush s)) ∧
    (s.pc + 1 + n ≤ s.len → s.cfg.stackDepth = some s.stack.length →
      exec (i v) s = .next (failed .stackOverflow s)) ∧
    (s.pc + 1 + n ≤ s.len → s.cfg.stackDepth ≠ some s.stack.length →
      exec (i v) s = .next { s with pc := s.pc + 1 + n, stack := v :: s.stack }))

/-- The stack an instruction is run on is replaced. -/
def withOperands (s : State) (st : List Word) : State :=
  { s with stack := st }

/-- Both OPEN parameters at the document's value, infinite (R7). -/
def unbounded (s : State) : State :=
  { s with cfg := { s.cfg with stackDepth := none, pcWidth := none } }

end Sys2Proof.Claims

open Sys2Proof Sys2Proof.Machine Sys2Proof.Claims

/-- Reset: pc 0, empty stack, RUNNING, no success, cause NONE, the host's program in place. (R32) -/
def Obligations.ResetLeavesTheStatedValues : Prop :=
  (∀ (cfg : Config) (bytes : List Byte),
    (State.load cfg bytes).pc = 0 ∧ (State.load cfg bytes).stack = [] ∧ (State.load cfg bytes).run = .running ∧
    (State.load cfg bytes).success = false ∧ (State.load cfg bytes).cause = .none ∧
    (State.load cfg bytes).len = bytes.length ∧ (State.load cfg bytes).cfg = cfg ∧
    ∀ k b, bytes[k]? = some b → byteAt (State.load cfg bytes) k = b) ∧
  (∀ s : State, s.applyReset =
    { s with pc := 0, stack := [], run := .running, success := false, cause := .none }) ∧
  State.reset.pc = 0 ∧ State.reset.stack = [] ∧ State.reset.run = .running ∧
  State.reset.success = false ∧ State.reset.cause = .none

/-- A HALTED state steps to itself. That the step is the identity there, and not undefined, is the model's choice (log
entry 6, DEDUCED), which the spec allows. (spec/40_step_and_dispatch.md section 5, D10, U14) -/
def Obligations.HaltedEngineStepsToItself : Prop :=
  ∀ s : State, s.run = .halted → step s = .next s

/-- A step at pc >= LEN is the end-of-code halt; an empty program takes it first. (R81) -/
def Obligations.EndOfCodeHaltsWithSuccess : Prop :=
  (∀ s : State, Ready s → s.len ≤ s.pc →
    step s = .next { s with run := .halted, success := true, cause := .endOfCode }) ∧
  (∀ cfg : Config, step (State.load cfg []) =
    .next { State.load cfg [] with run := .halted, success := true, cause := .endOfCode })

/-- A step in a ready state is exec of the instruction decoded at pc. (spec/40_step_and_dispatch.md section 1, R80,
R83) -/
def Obligations.StepRunsTheDecodedInstruction : Prop :=
  ∀ (s : State) (i : Instr) (rest : List Byte), Ready s → decode s.fetchBytes = .instr i rest →
    step s = exec i s

/-- When the encoding of a well-formed instruction stands at pc, the step is exec of it. (spec/40_step_and_dispatch.md
section 1, R69, R80, R83) -/
def Obligations.StepRunsTheEncodingAtPc : Prop :=
  ∀ (s : State) (i : Instr), Ready s → i.wf = true → s.pc + (encode i).length ≤ s.len →
    (∀ k b, (encode i)[k]? = some b → byteAt s (s.pc + k) = b) → step s = exec i s

/-- Words written out from the opcode map decode to the instructions they stand for. (spec/30_encoding.md section 3,
R60, R63) -/
def Obligations.SampleWordsDecodeAsTheMapSays : Prop :=
  decode [0x00] = .instr .stop [] ∧ decode [0x01] = .instr .add [] ∧ decode [0x0b] = .instr .signextend [] ∧
  decode [0x10] = .instr .lt [] ∧ decode [0x15] = .instr .iszero [] ∧ decode [0x50] = .instr .pop [] ∧
  decode [0x5f] = .instr .push0 [] ∧ decode [0x60, 0x05] = .instr (.push1 5) [] ∧
  decode [0x61, 0x01, 0x00] = .instr (.push2 256) [] ∧ decode [0xfe] = .unknownOpcode 0xfe

/-- Decoding the encoding of any well-formed instruction gives it back, whatever follows. (spec/30_encoding.md
sections 1 to 3, R60, R62, R63) -/
def Obligations.DecodeOfEncodeIsTheInstruction : Prop :=
  ∀ (i : Instr) (rest : List Byte), i.wf = true → decode (encode i ++ rest) = .instr i rest

/-- What the decoder reads is well formed and encodes to the very bytes it was read from. (spec/30_encoding.md
sections 1 to 3, R60, R61, R62, R63) -/
def Obligations.EncodeOfDecodeIsTheBytes : Prop :=
  ∀ (bytes rest : List Byte) (i : Instr), decode bytes = .instr i rest →
    i.wf = true ∧ encode i ++ rest = bytes

/-- The decoder rejects exactly the 204 unknown byte values, and no other byte with its immediate present.
(spec/30_encoding.md section 4, R64, R66) -/
def Obligations.UnknownBytesAreRejectedByName : Prop :=
  (∀ (b : Byte) (tail : List Byte), IsUnknown b → decode (b :: tail) = .unknownOpcode b) ∧
  (∀ (b : Byte) (tail : List Byte), ¬ IsUnknown b → 32 ≤ tail.length →
    ∃ i rest, decode (b :: tail) = .instr i rest) ∧
  ((List.range 256).filter fun n => decide (IsUnknown (BitVec.ofNat 8 n))).length = 204

/-- The opcode byte alone fixes the length: 1 + (op - 0x5f) for 0x60..0x7f, else 1, unknown bytes included. (R61) -/
def Obligations.InstructionLengthIsFixedByTheOpcode : Prop :=
  (∀ (op : Byte) (tail rest : List Byte) (i : Instr), decode (op :: tail) = .instr i rest →
    ∃ imm, tail = imm ++ rest ∧
      imm.length + 1 = if 0x60 ≤ op.toNat ∧ op.toNat ≤ 0x7f then 1 + (op.toNat - 0x5f) else 1) ∧
  (∀ s t : State, s.run = .running → step s = .next t → t.run = .running →
    t.pc = s.pc + if 0x60 ≤ opAt s ∧ opAt s ≤ 0x7f then 1 + (opAt s - 0x5f) else 1)

/-- STOP halts with success and cause STOP; pc is past it and the stack is unchanged. (R87) -/
def Obligations.StopHaltsWithSuccess : Prop :=
  (encode .stop = [0x00] ∧ ∀ tail, decode (0x00 :: tail) = .instr .stop tail) ∧
  ∀ s : State, exec .stop s = .next { s with pc := s.pc + 1, run := .halted, success := true, cause := .stop }

/-- ADD: wrap(a + b). (R140) -/
def Obligations.AddGivesTheLow256BitsOfTheSum : Prop :=
  BinaryRule .add 0x01 fun a b => BitVec.ofNat 256 (a.toNat + b.toNat)

/-- MUL: wrap(a * b). (R141) -/
def Obligations.MulGivesTheLow256BitsOfTheProduct : Prop :=
  BinaryRule .mul 0x02 fun a b => BitVec.ofNat 256 (a.toNat * b.toNat)

/-- SUB: wrap(a - b), the minuend on top. (R142) -/
def Obligations.SubTakesTheSecondFromTheTop : Prop :=
  BinaryRule .sub 0x03
    fun a b => BitVec.ofInt 256 (if (a.toNat : Int) - b.toNat < 0 then (a.toNat : Int) - b.toNat + 2 ^ 256
      else (a.toNat : Int) - b.toNat)

/-- DIV: unsigned quotient, 0 for a zero divisor. (R143) -/
def Obligations.DivIsTheUnsignedFloorOrZero : Prop :=
  BinaryRule .div 0x04 fun a b => if b = 0 then 0 else BitVec.ofNat 256 (a.toNat / b.toNat)

/-- SDIV: signed quotient truncated toward zero, 0 for a zero divisor. (R144) -/
def Obligations.SdivTruncatesTowardZero : Prop :=
  BinaryRule .sdiv 0x05 fun a b => if b = 0 then 0 else BitVec.ofInt 256 (a.toInt.tdiv b.toInt)

/-- MOD: unsigned remainder, 0 for a zero modulus. (R145) -/
def Obligations.ModIsTheUnsignedRemainderOrZero : Prop :=
  BinaryRule .mod 0x06 fun a b => if b = 0 then 0 else BitVec.ofNat 256 (a.toNat % b.toNat)

/-- SMOD: signed remainder with the dividend's sign, 0 for a zero modulus. (R146) -/
def Obligations.SmodFollowsTheDividendsSign : Prop :=
  BinaryRule .smod 0x07
    fun a b => if b = 0 then 0 else BitVec.ofInt 256 (a.toInt.sign * (a.toInt.natAbs % b.toInt.natAbs : Nat))

/-- ADDMOD: (wrap(a + b)) mod c, 0 for a zero modulus. (R147) -/
def Obligations.AddmodWrapsTheSumFirst : Prop :=
  TernaryRule .addmod 0x08
    fun a b c => if c = 0 then 0 else BitVec.ofNat 256 ((a.toNat + b.toNat) % 2 ^ 256 % c.toNat)

/-- MULMOD: (a * b) mod c with the exact product, 0 for a zero modulus. (R148) -/
def Obligations.MulmodReducesTheFullProduct : Prop :=
  TernaryRule .mulmod 0x09
    fun a b c => if c = 0 then 0 else BitVec.ofNat 256 (a.toNat * b.toNat % c.toNat)

/-- EXP: wrap(a ^ b), the base on top. (R149) -/
def Obligations.ExpIsTheWrappedPower : Prop :=
  BinaryRule .exp 0x0a fun a b => BitVec.ofNat 256 (a.toNat ^ b.toNat)

/-- SIGNEXTEND: the low a + 1 bytes of b as a signed number, b itself for a >= 31. (R151) -/
def Obligations.SignextendWidensTheLowBytes : Prop :=
  BinaryRule .signextend 0x0b
    fun a b => if 31 ≤ a.toNat then b else (b.setWidth (8 * (a.toNat + 1))).signExtend 256

/-- LT: 1 if a < b unsigned, else 0. (R171) -/
def Obligations.LtComparesUnsigned : Prop :=
  BinaryRule .lt 0x10 fun a b => truth (a.toNat < b.toNat)

/-- GT: 1 if a > b unsigned, else 0. (R172) -/
def Obligations.GtComparesUnsigned : Prop :=
  BinaryRule .gt 0x11 fun a b => truth (a.toNat > b.toNat)

/-- SLT: 1 if a < b signed, else 0. (R173) -/
def Obligations.SltComparesSigned : Prop :=
  BinaryRule .slt 0x12 fun a b => truth (a.toInt < b.toInt)

/-- SGT: 1 if a > b signed, else 0. (R174) -/
def Obligations.SgtComparesSigned : Prop :=
  BinaryRule .sgt 0x13 fun a b => truth (a.toInt > b.toInt)

/-- EQ: 1 if all 256 bits are equal, else 0. (R175) -/
def Obligations.EqComparesAll256Bits : Prop :=
  BinaryRule .eq 0x14 (fun a b => truth (a = b)) ∧
  BinaryRule .eq 0x14 fun a b => truth (a.toInt = b.toInt)

/-- ISZERO: 1 if a = 0, else 0. (R176) -/
def Obligations.IszeroTestsForZero : Prop :=
  UnaryRule .iszero 0x15 fun a => truth (a = 0)

/-- POP drops the top Word; on an empty stack it underflows. (R100) -/
def Obligations.PopDiscardsTheTop : Prop :=
  (encode .pop = [0x50] ∧ ∀ tail, decode (0x50 :: tail) = .instr .pop tail) ∧
  (∀ (s : State) (a : Word) (rest : List Word), s.stack = a :: rest →
    exec .pop s = .next { s with pc := s.pc + 1, stack := rest }) ∧
  (∀ s : State, s.stack.length < 1 → exec .pop s = .next (failed .stackUnderflow s))

/-- PUSH0 pushes 0; on a full finite stack it overflows. (R101) -/
def Obligations.Push0PushesZero : Prop :=
  (encode .push0 = [0x5f] ∧ ∀ tail, decode (0x5f :: tail) = .instr .push0 tail) ∧
  (∀ s : State, s.cfg.stackDepth ≠ some s.stack.length →
    exec .push0 s = .next { s with pc := s.pc + 1, stack := 0 :: s.stack }) ∧
  (∀ s : State, s.cfg.stackDepth = some s.stack.length →
    exec .push0 s = .next (failed .stackOverflow s))

/-- PUSH1 to PUSH8: encoding, range of the immediate, truncation, overflow, result. (R103, R104, R105, R106, R107,
R108, R109, R110) -/
def Obligations.Push1ToPush8 : Prop :=
  PushRule .push1 1 ∧
  PushRule .push2 2 ∧
  PushRule .push3 3 ∧
  PushRule .push4 4 ∧
  PushRule .push5 5 ∧
  PushRule .push6 6 ∧
  PushRule .push7 7 ∧
  PushRule .push8 8

/-- PUSH9 to PUSH16: encoding, range of the immediate, truncation, overflow, result. (R111, R112, R113, R114, R115,
R116, R117, R118) -/
def Obligations.Push9ToPush16 : Prop :=
  PushRule .push9 9 ∧
  PushRule .push10 10 ∧
  PushRule .push11 11 ∧
  PushRule .push12 12 ∧
  PushRule .push13 13 ∧
  PushRule .push14 14 ∧
  PushRule .push15 15 ∧
  PushRule .push16 16

/-- PUSH17 to PUSH24: encoding, range of the immediate, truncation, overflow, result. (R119, R120, R121, R122, R123,
R124, R125, R126) -/
def Obligations.Push17ToPush24 : Prop :=
  PushRule .push17 17 ∧
  PushRule .push18 18 ∧
  PushRule .push19 19 ∧
  PushRule .push20 20 ∧
  PushRule .push21 21 ∧
  PushRule .push22 22 ∧
  PushRule .push23 23 ∧
  PushRule .push24 24

/-- PUSH25 to PUSH32: encoding, range of the immediate, truncation, overflow, result. (R127, R128, R129, R130, R131,
R132, R133, R134) -/
def Obligations.Push25ToPush32 : Prop :=
  PushRule .push25 25 ∧
  PushRule .push26 26 ∧
  PushRule .push27 27 ∧
  PushRule .push28 28 ∧
  PushRule .push29 29 ∧
  PushRule .push30 30 ∧
  PushRule .push31 31 ∧
  PushRule .push32 32

/-- A step at a PUSHn opcode pushes MemRead(p + 1, n), or is truncated, or overflows, in that order of tests. (R102)
-/
def Obligations.PushStepReadsTheImmediateFromCode : Prop :=
  ∀ (s : State) (n : Nat), Ready s → s.pc < s.len → 1 ≤ n → n ≤ 32 → opAt s = 0x5f + n →
    memRead s (s.pc + 1) n < 2 ^ (8 * n) ∧
    if s.pc + 1 + n > s.len then step s = .next (failed .truncatedPush s)
    else if s.cfg.stackDepth = some s.stack.length then step s = .next (failed .stackOverflow s)
    else step s = .next
      { s with pc := s.pc + 1 + n, stack := BitVec.ofNat 256 (memRead s (s.pc + 1) n) :: s.stack }

/-- A step at an unknown byte changes only pc, or with UNKNOWN_OPCODE_FAILS is the UnknownOpcode failure. (R88) -/
def Obligations.UnknownOpcodeIsANoOpOrAFailure : Prop :=
  ∀ s : State, Ready s → s.pc < s.len → IsUnknown (byteAt s s.pc) →
    if s.cfg.unknownOpcodeFails = true then step s = .next (failed .unknownOpcode s)
    else step s = .next { s with pc := s.pc + 1 }

/-- What no instruction changes: the program and its every byte, LEN, the parameters; status and stack by cases.
(spec/10_state.md sections 3 and 6, R22, R30, R40, R48, R187) -/
def Obligations.FrameOfEveryInstruction : Prop :=
  (∀ (i : Instr) (s t : State), exec i s = .next t →
    t.code = s.code ∧ (∀ a, byteAt t a = byteAt s a) ∧ t.len = s.len ∧ t.cfg = s.cfg ∧
    ((t.run = s.run ∧ t.success = s.success ∧ t.cause = s.cause) ∨
     (t.run = .halted ∧ t.stack = s.stack ∧ t.pc = s.pc + 1))) ∧
  (∀ s t : State, step s = .next t →
    t.code = s.code ∧ (∀ a, byteAt t a = byteAt s a) ∧ t.len = s.len ∧ t.cfg = s.cfg)

/-- Arity above the depth: StackUnderflow with nothing popped; enough Words: the instruction cannot fail. (R84) -/
def Obligations.UnderflowIsTestedBeforeAnyPop : Prop :=
  ∀ (i : Instr) (s : State),
    (s.stack.length < i.pops → exec i s = .next (failed .stackUnderflow s)) ∧
    (0 < i.pops → i.pops ≤ s.stack.length → ∃ t, exec i s = .next t ∧ t.pc = s.pc + 1 ∧
      t.run = s.run ∧ t.success = s.success ∧ t.cause = s.cause) ∧
    (i.pops = 0 → s.cause ≠ .stackUnderflow → ∀ t, exec i s = .next t → t.cause ≠ .stackUnderflow)

/-- A completed instruction removes `pops` Words, adds `pushes`, and leaves every Word below as it was.
(spec/30_encoding.md section 3, R22, R63, R86) -/
def Obligations.StackEffectFollowsTheTable : Prop :=
  ∀ (i : Instr) (s t : State), s.run = .running → exec i s = .next t → t.run = .running →
    i.pops ≤ s.stack.length ∧
      ∃ new : List Word, new.length = i.pushes ∧ t.stack = new ++ s.stack.drop i.pops

/-- The pc after every step: unchanged at the end of code, p + 1 + n after a completed PUSHn, else p + 1. (R26) -/
def Obligations.ProgramCounterFollowsTheTable : Prop :=
  ∀ s t : State, s.run = .running → step s = .next t →
    t.pc =
      if s.len ≤ s.pc then s.pc
      else if 0x60 ≤ opAt s ∧ opAt s ≤ 0x7f ∧ s.pc + 1 + (opAt s - 0x5f) ≤ s.len ∧
        s.cfg.stackDepth ≠ some s.stack.length then s.pc + 1 + (opAt s - 0x5f)
      else s.pc + 1

/-- TruncatedPush is raised exactly by a PUSHn with p + 1 + n > LEN, within the last 32 bytes, and changes no stack.
(R181) -/
def Obligations.TruncatedPushExactlyWhenBytesAreMissing : Prop :=
  ∀ s : State, Ready s → s.cause = .none →
    (∀ t, step s = .next t → (t.cause = .truncatedPush ↔
      s.pc < s.len ∧ 0x60 ≤ opAt s ∧ opAt s ≤ 0x7f ∧ s.len < s.pc + 1 + (opAt s - 0x5f))) ∧
    (s.pc < s.len → 0x60 ≤ opAt s → opAt s ≤ 0x7f → s.len < s.pc + 1 + (opAt s - 0x5f) →
      step s = .next (failed .truncatedPush s) ∧ s.len ≤ s.pc + 32)

/-- StackUnderflow is raised exactly by an instruction whose arity exceeds the depth, and changes no stack. (R182) -/
def Obligations.StackUnderflowExactlyWhenArityExceedsDepth : Prop :=
  ∀ s : State, Ready s → s.cause = .none →
    (∀ t, step s = .next t → (t.cause = .stackUnderflow ↔
      s.pc < s.len ∧ s.stack.length < arityOf (opAt s))) ∧
    (s.pc < s.len → s.stack.length < arityOf (opAt s) → step s = .next (failed .stackUnderflow s))

/-- StackOverflow is raised exactly by a complete PUSH at depth = STACK_DEPTH; a step without it is the unlimited one.
(R183) -/
def Obligations.StackOverflowExactlyOnAPushAtTheLimit : Prop :=
  ∀ s : State, Ready s → s.cause = .none →
    (∀ t, step s = .next t → (t.cause = .stackOverflow ↔
      s.pc < s.len ∧ s.cfg.stackDepth = some s.stack.length ∧ 0x5f ≤ opAt s ∧ opAt s ≤ 0x7f ∧
        s.pc + 1 + (opAt s - 0x5f) ≤ s.len)) ∧
    (s.pc < s.len → s.cfg.stackDepth = some s.stack.length → 0x5f ≤ opAt s → opAt s ≤ 0x7f →
      s.pc + 1 + (opAt s - 0x5f) ≤ s.len → step s = .next (failed .stackOverflow s)) ∧
    (∀ t, step s = .next t → t.cause ≠ .stackOverflow →
      step { s with cfg := { s.cfg with stackDepth := none } } =
        .next { t with cfg := { t.cfg with stackDepth := none } })

/-- UnknownOpcode is raised exactly by an unknown byte under UNKNOWN_OPCODE_FAILS, and changes no stack. (R184) -/
def Obligations.UnknownOpcodeFailsExactlyWhenEnabled : Prop :=
  ∀ s : State, Ready s → s.cause = .none →
    (∀ t, step s = .next t → (t.cause = .unknownOpcode ↔
      s.pc < s.len ∧ IsUnknown (byteAt s s.pc) ∧ s.cfg.unknownOpcodeFails = true)) ∧
    (s.pc < s.len → IsUnknown (byteAt s s.pc) → s.cfg.unknownOpcodeFails = true →
      step s = .next (failed .unknownOpcode s))

/-- A step that ends in a failure changes only pc (to p + 1) and the status; the stack stays as it stood. (R187) -/
def Obligations.FailureEntryIsAHaltAndNothingElse : Prop :=
  ∀ s t : State, s.run = .running → step s = .next t → t.run = .halted → t.success = false →
    t = failed t.cause s ∧
      (t.cause = .truncatedPush ∨ t.cause = .stackUnderflow ∨ t.cause = .stackOverflow ∨ t.cause = .unknownOpcode)

/-- A halting step sets success exactly for STOP and END_OF_CODE, and clears it exactly for the four failures. (R193)
-/
def Obligations.SuccessExactlyForStopAndEndOfCode : Prop :=
  ∀ s t : State, s.run = .running → step s = .next t → t.run = .halted →
    (t.success = true ↔ t.cause = .stop ∨ t.cause = .endOfCode) ∧
    (t.success = false ↔ t.cause = .truncatedPush ∨ t.cause = .stackUnderflow ∨ t.cause = .stackOverflow ∨
      t.cause = .unknownOpcode) ∧
    (s.cfg.stackDepth = none → s.cfg.unknownOpcodeFails = false →
      (t.success = false ↔ t.cause = .truncatedPush ∨ t.cause = .stackUnderflow))

/-- The state after reset meets the invariant of a run, for every program and parameter setting. (spec/10_state.md
section 8, R27, R28, R32, R36) -/
def Obligations.ResetStatesMeetTheInvariant : Prop :=
  State.reset.Inv ∧ (∀ (cfg : Config) (bytes : List Byte), (State.load cfg bytes).Inv) ∧
  (∀ s : State, s.CodeOk → s.applyReset.Inv)

/-- Every step keeps the invariant: status record consistent, depth bounded, code canonical, pc <= LEN.
(spec/10_state.md sections 3 to 5, R27, R28, R36, R193) -/
def Obligations.EveryStepKeepsTheInvariant : Prop :=
  ∀ s t : State, s.Inv → step s = .next t → t.Inv

/-- Every run halts: at most LEN - pc steps that do not halt, then exactly one halting step. (R89) -/
def Obligations.EveryRunHaltsWithinLenPlusOneSteps : Prop :=
  (∀ s : State, Ready s → ∃ n u t, n ≤ s.len - s.pc ∧
    (∀ m, m ≤ n → ∃ v, Sys2Proof.core.run m s = .next v ∧ State.run v = .running) ∧
    Sys2Proof.core.run n s = .next u ∧ step u = .next t ∧ t.run = .halted ∧
    (u.pc < u.len → n + 1 ≤ s.len - s.pc)) ∧
  (∀ s t : State, s.run = .running → step s = .next t → t.run = .running → s.pc + 1 ≤ t.pc ∧ t.pc ≤ t.len)

/-- A run that raises no StackOverflow is, step for step, the run with infinite STACK_DEPTH and PC_WIDTH.
(spec/92_eei_decisions.md D3, D5, R25, R36, R183) -/
def Obligations.UnboundedParametersGiveTheSameRun : Prop :=
  ∀ (n : Nat) (s t : State), Sys2Proof.core.run n s = .next t → t.cause ≠ .stackOverflow →
    Sys2Proof.core.run n (unbounded s) = .next (unbounded t)

/-- What stands at or past LEN is never read: a step does the same whatever is there. (spec/20_memory.md section 5,
R45) -/
def Obligations.BytesBeyondTheProgramAreUnobservable : Prop :=
  ∀ (s t : State) (m : Memory), (∀ a, a < s.len → Memory.read m a = byteAt s a) → step s = .next t →
    step { s with code := m } = .next { t with code := m }

/-- The Execution Result: only when HALTED, top first; bottom first only after STOP under STOP_UNREVERSED. (R31) -/
def Obligations.ResultPortShowsTheStackAtHalt : Prop :=
  ∀ s : State, (s.run = .running → s.result = none) ∧
    (s.run = .halted → ∃ words : List Word, s.result = some (words, s.success) ∧
      words.length = s.stack.length ∧
      ∀ i, i < s.stack.length → s.resWord i = words[i]? ∧
        words[i]? =
          if s.cfg.stopUnreversed = true ∧ s.cause = .stop then s.stack[s.stack.length - 1 - i]? else s.stack[i]?)

/-- STATUS: run in bit 0, success in bit 1, the cause code in bits 4:2, bits 7:5 zero. (spec/10_state.md section 5,
R28) -/
def Obligations.StatusByteLaysOutTheStatusRecord : Prop :=
  (∀ s : State, s.status.getLsbD 0 = decide (s.run = .halted) ∧ s.status.getLsbD 1 = s.success ∧
    s.status.toNat / 4 % 8 = s.cause.code ∧ s.status.toNat / 32 = 0) ∧
  Cause.none.code = 0 ∧ Cause.stop.code = 1 ∧ Cause.endOfCode.code = 2 ∧ Cause.truncatedPush.code = 3 ∧
  Cause.stackUnderflow.code = 4 ∧ Cause.stackOverflow.code = 5 ∧ Cause.unknownOpcode.code = 6

/-- ADD, MUL, EQ commute, ADDMOD and MULMOD in their first two operands; the eleven others do not. (R153) -/
def Obligations.CommutativeInstructions : Prop :=
  (∀ (s : State) (a b : Word) (rest : List Word), ∀ i ∈ [Instr.add, Instr.mul, Instr.eq],
    exec i (withOperands s (a :: b :: rest)) = exec i (withOperands s (b :: a :: rest))) ∧
  (∀ (s : State) (a b c : Word) (rest : List Word), ∀ i ∈ [Instr.addmod, Instr.mulmod],
    exec i (withOperands s (a :: b :: c :: rest)) = exec i (withOperands s (b :: a :: c :: rest))) ∧
  (∀ i ∈ [Instr.sub, Instr.div, Instr.sdiv, Instr.mod, Instr.smod, Instr.exp, Instr.signextend, Instr.lt, Instr.gt,
      Instr.slt, Instr.sgt],
    ∃ a b : Word, ∀ (s : State) (rest : List Word),
      exec i (withOperands s (a :: b :: rest)) ≠ exec i (withOperands s (b :: a :: rest)))

/-- A zero divisor or modulus gives the Word 0 and raises nothing; all operands are popped. (R154) -/
def Obligations.ZeroDivisorsGiveZero : Prop :=
  (∀ (s : State) (a : Word) (rest : List Word), ∀ i ∈ [Instr.div, Instr.sdiv, Instr.mod, Instr.smod],
    exec i (withOperands s (a :: 0 :: rest)) = .next { withOperands s (0 :: rest) with pc := s.pc + 1 }) ∧
  (∀ (s : State) (a b : Word) (rest : List Word), ∀ i ∈ [Instr.addmod, Instr.mulmod],
    exec i (withOperands s (a :: b :: 0 :: rest)) = .next { withOperands s (0 :: rest) with pc := s.pc + 1 })

/-- SDIV and SMOD: x = q * y + r, |r| < |y|, the sign table, and the one overflow case. (R155) -/
def Obligations.SignsOfQuotientAndRemainder : Prop :=
  ∀ (s : State) (a b : Word) (rest : List Word), s.stack = a :: b :: rest → b ≠ 0 →
    ∃ q r : Int,
      exec .sdiv s = .next { s with pc := s.pc + 1, stack := BitVec.ofInt 256 q :: rest } ∧
      exec .smod s = .next { s with pc := s.pc + 1, stack := BitVec.ofInt 256 r :: rest } ∧
      a.toInt = q * b.toInt + r ∧ r.natAbs < b.toInt.natAbs ∧
      (0 ≤ a.toInt → 0 < b.toInt → 0 ≤ q ∧ 0 ≤ r) ∧ (0 ≤ a.toInt → b.toInt < 0 → q ≤ 0 ∧ 0 ≤ r) ∧
      (a.toInt < 0 → 0 < b.toInt → q ≤ 0 ∧ r ≤ 0) ∧ (a.toInt < 0 → b.toInt < 0 → 0 ≤ q ∧ r ≤ 0) ∧
      ((q < -2 ^ 255 ∨ 2 ^ 255 ≤ q) ↔ a.toInt = -2 ^ 255 ∧ b.toInt = -1) ∧
      (a.toInt = -2 ^ 255 → b.toInt = -1 → q = 2 ^ 255 ∧ r = 0)

/-- ADD, SUB and MUL are the wrapped sum, difference and product of the signed readings; SUB(a, b) = ADD(a, SUB(0,
b)). (R157) -/
def Obligations.SignedAndUnsignedReadingsAgree : Prop :=
  ∀ (s : State) (a b : Word) (rest : List Word), s.stack = a :: b :: rest →
    exec .add s = .next { s with pc := s.pc + 1, stack := BitVec.ofInt 256 (a.toInt + b.toInt) :: rest } ∧
    exec .sub s = .next { s with pc := s.pc + 1, stack := BitVec.ofInt 256 (a.toInt - b.toInt) :: rest } ∧
    exec .mul s = .next { s with pc := s.pc + 1, stack := BitVec.ofInt 256 (a.toInt * b.toInt) :: rest } ∧
    ∃ (w : Word) (u : State), exec .sub (withOperands s (0 :: b :: rest)) = .next u ∧ u.stack = w :: rest ∧
      exec .sub s = exec .add (withOperands s (a :: w :: rest))

/-- SIGNEXTEND with a <= 30 gives the signed reading of the low 8(a + 1) bits, and a second one changes nothing.
(spec/95_test_vectors.md Q10, R151) -/
def Obligations.SignextendIsIdempotentAndSigned : Prop :=
  ∀ (s : State) (a b : Word) (rest : List Word), s.stack = a :: b :: rest → a.toNat ≤ 30 →
    ∃ r : Word, exec .signextend s = .next { s with pc := s.pc + 1, stack := r :: rest } ∧
      exec .signextend (withOperands s (a :: r :: rest)) = .next { s with pc := s.pc + 1, stack := r :: rest } ∧
      r.toInt =
        if b.toNat % 2 ^ (8 * (a.toNat + 1)) < 2 ^ (8 * (a.toNat + 1) - 1)
        then ((b.toNat % 2 ^ (8 * (a.toNat + 1)) : Nat) : Int)
        else ((b.toNat % 2 ^ (8 * (a.toNat + 1)) : Nat) : Int) - 2 ^ (8 * (a.toNat + 1))

/-- A step is refused exactly if PC_WIDTH is finite and LEN > 2^PC_WIDTH - 1; every other step answers a next state.
That `step` makes the refusal, and that a HALTED state steps at all, are the model's choices (log entries 7 and 6).
(spec/92_eei_decisions.md D5, spec/93_implementation_defined.md U6, R25, R80) -/
def Obligations.StepRefusesOnlyAProgramTooLong : Prop :=
  (∀ (s : State) (r : Refusal), step s = .refused r ↔
    s.run = .running ∧ r = .programTooLong ∧ ∃ w, s.cfg.pcWidth = some w ∧ 2 ^ w - 1 < s.len) ∧
  (∀ s : State, Ready s → ∃ t, step s = .next t) ∧
  (∀ s : State, s.run = .halted → ∃ t, step s = .next t)

/-- Two canonical code memories that read alike at every address are the same list, and loading keeps the form.
(spec/20_memory.md section 1, R40) -/
def Obligations.CanonicalMemoriesAreEqualWhenTheyReadAlike : Prop :=
  (∀ m m' : Memory, m.wf = true → m'.wf = true → (∀ a, Memory.read m a = Memory.read m' a) → m = m') ∧
  (∀ (m : Memory) (a : Nat) (bytes : List Byte), m.wf = true →
    (Memory.writeRange m a bytes).wf = true ∧
    ∀ k b, bytes[k]? = some b → Memory.read (Memory.writeRange m a bytes) (a + k) = b)
end

