-- ==== Sys2Proof/Laws/Alu.lean ====
section
/-! SUPPORT. The integer helpers of R9 to R11 in Lean's own terms, so that no proof about an instruction unfolds them. -/

namespace Sys2Proof.Machine

/-- Wrapping a natural number keeps its low 256 bits (R9). -/
theorem wrap_natCast (n : Nat) : wrap (n : Int) = BitVec.ofNat 256 n :=
  BitVec.ofInt_natCast 256 n

/-- The signed reading of a Word is its two's-complement reading (R10). -/
theorem sgn_eq_toInt (w : Word) : sgn w = w.toInt := by
  have h := w.isLt
  rw [sgn, BitVec.toInt_eq_toNat_cond]
  split <;> split <;> omega

/-- The quotient of R11 is Lean's quotient truncated toward zero. -/
theorem tdiv_eq (x y : Int) : tdiv x y = x.tdiv y := by
  match x, y with
  | .ofNat 0, _ => simp [tdiv]
  | .ofNat (m + 1), .ofNat 0 => simp [tdiv]
  | .negSucc m, .ofNat 0 => simp [tdiv]
  | .ofNat (m + 1), .ofNat (k + 1) => exact Int.one_mul (((m + 1) / (k + 1) : Nat) : Int)
  | .ofNat (m + 1), .negSucc k => exact Int.neg_one_mul (((m + 1) / (k + 1) : Nat) : Int)
  | .negSucc m, .ofNat (k + 1) => exact Int.neg_one_mul (((m + 1) / (k + 1) : Nat) : Int)
  | .negSucc m, .negSucc k => exact Int.one_mul (((m + 1) / (k + 1) : Nat) : Int)

/-- The remainder of R11 is Lean's remainder with the dividend's sign. -/
theorem trem_eq (x y : Int) : trem x y = x.tmod y := by
  rw [trem, tdiv_eq, Int.tmod_def, Int.mul_comm]

/-- `bool(p)` of a decided proposition (R11). -/
theorem boolWord_decide (p : Prop) [Decidable p] : boolWord (decide p) = if p then 1 else 0 := by
  simp [boolWord]

end Sys2Proof.Machine
end

