-- ==== Sys2Proof/Laws/Decode.lean ====
section
/-! SUPPORT. Small facts about the opcode map and the byte sequences of the encodings. -/

namespace Sys2Proof

/-- The length of an immediate is fixed by the opcode byte (R61). -/
@[simp] theorem immCount_opcodeOf (i : Instr) : immCount (opcodeOf i) = i.immLen := by
  cases i <;> rfl

/-- The map gives back the instruction of its own opcode byte and immediate. -/
@[simp] theorem instrOf_opcodeOf (i : Instr) : instrOf (opcodeOf i) i.imm = some i := by
  cases i <;> rfl

/-- Whatever the map gives for a byte has that byte as its opcode, and its immediate where it has one. -/
theorem instrOf_some {op : Byte} {v : Word} {i : Instr} (h : instrOf op v = some i) :
    op = opcodeOf i ∧ (i.imm = v ∨ i.immLen = 0 ∧ i.imm = 0) := by
  unfold instrOf at h
  split at h <;> first
    | (cases h; exact ⟨rfl, .inl rfl⟩)
    | (cases h; exact ⟨rfl, .inr ⟨rfl, rfl⟩⟩)
    | cases h

theorem decode_nil : decode [] = .noBytes := rfl

theorem decode_short {op : Byte} {tail : List Byte} (h : tail.length < immCount op) :
    decode (op :: tail) = .missingImmediate op := by
  simp [decode, h]

theorem decode_some {op : Byte} {tail : List Byte} {i : Instr} (h : immCount op ≤ tail.length)
    (hi : instrOf op (beWord (tail.take (immCount op))) = some i) :
    decode (op :: tail) = .instr i (tail.drop (immCount op)) := by
  simp [decode, hi, Nat.not_lt.mpr h]

theorem decode_none {op : Byte} {tail : List Byte} (h : immCount op ≤ tail.length)
    (hi : instrOf op (beWord (tail.take (immCount op))) = none) :
    decode (op :: tail) = .unknownOpcode op := by
  simp [decode, hi, Nat.not_lt.mpr h]

/-- What an instruction was decoded from. -/
theorem decode_instr {bs rest : List Byte} {i : Instr} (h : decode bs = .instr i rest) :
    ∃ op tail, bs = op :: tail ∧ immCount op ≤ tail.length ∧
      instrOf op (beWord (tail.take (immCount op))) = some i ∧ rest = tail.drop (immCount op) := by
  cases bs with
  | nil => cases h
  | cons op tail =>
    simp only [decode] at h
    split at h
    · cases h
    · next hl =>
      split at h
      · next j hj =>
        cases h
        exact ⟨op, tail, rfl, by omega, hj, rfl⟩
      · cases h

@[simp] theorem beBytes_length (n v : Nat) : (beBytes n v).length = n := by
  induction n with
  | zero => rfl
  | succ n ih => simp [beBytes, ih]

/-- Reading `k` more bytes shifts what stands to their left by `k` bytes. -/
theorem beNatFrom_eq (acc : Nat) (bs : List Byte) :
    beNatFrom acc bs = acc * 256 ^ bs.length + beNat bs := by
  unfold beNat
  induction bs generalizing acc with
  | nil => simp [beNatFrom]
  | cons b bs ih =>
    rw [beNatFrom, ih, beNatFrom, ih (0 * 256 + b.toNat), List.length_cons, Nat.pow_succ, Nat.add_mul]
    simp only [Nat.zero_mul, Nat.zero_add]
    rw [Nat.mul_assoc, Nat.mul_comm 256, Nat.add_assoc]

/-- The first byte of a sequence is its most significant (R41). -/
theorem beNat_cons (b : Byte) (bs : List Byte) : beNat (b :: bs) = b.toNat * 256 ^ bs.length + beNat bs := by
  rw [beNat, beNatFrom, beNatFrom_eq]
  simp

/-- `n` bytes hold a number below `256 ^ n` (R62). -/
theorem beNat_lt (bs : List Byte) : beNat bs < 256 ^ bs.length := by
  induction bs with
  | nil => simp [beNat, beNatFrom]
  | cons b bs ih =>
    rw [beNat_cons, List.length_cons, Nat.pow_succ]
    have hb : b.toNat < 256 := b.isLt
    have := Nat.mul_le_mul_right (256 ^ bs.length) (show b.toNat + 1 ≤ 256 by omega)
    rw [Nat.add_mul, Nat.one_mul, Nat.mul_comm 256] at this
    omega

@[simp] theorem leBytes_length (n w : Nat) : (leBytes n w).length = n := by
  induction n generalizing w with
  | zero => rfl
  | succ n ih => simp [leBytes, ih]

/-- The bytes a table word is laid out on are as many as the longest instruction has. -/
@[simp] theorem tableBytes_length (nbits w : Nat) : (tableBytes nbits w).length = maxInstrLen := by
  simp [tableBytes]

end Sys2Proof
end

