-- ==== Sys2Proof/Laws/Memory.lean ====
section
/-! SUPPORT. The code memory: a read after a write, and every operation keeps the canonical form. -/

namespace Sys2Proof.Machine

@[simp] theorem Memory.read_nil (a : Nat) : Memory.read [] a = Memory.unlisted := rfl

@[simp] theorem Memory.readRange_zero (m : Memory) (a : Nat) : Memory.readRange m a 0 = [] := by
  simp [Memory.readRange]

@[simp] theorem Memory.readRange_succ (m : Memory) (a n : Nat) :
    Memory.readRange m a (n + 1) = Memory.read m a :: Memory.readRange m (a + 1) n := by
  simp [Memory.readRange]

@[simp] theorem Memory.length_readRange (m : Memory) (a n : Nat) : (Memory.readRange m a n).length = n := by
  induction n generalizing a with
  | zero => simp
  | succ n ih => simp [ih]

/-- The bytes of a range are the bytes at its addresses. -/
theorem Memory.getElem?_readRange (m : Memory) (a n k : Nat) (h : k < n) :
    (Memory.readRange m a n)[k]? = some (Memory.read m (a + k)) := by
  induction n generalizing a k with
  | zero => omega
  | succ n ih =>
    cases k with
    | zero => simp
    | succ k =>
      rw [Memory.readRange_succ, List.getElem?_cons_succ, ih (a + 1) k (by omega)]
      congr 2
      omega

/-- Two memories that agree on a range give the same bytes there. -/
theorem Memory.readRange_congr {m m' : Memory} {a n : Nat}
    (h : ∀ k, k < n → Memory.read m (a + k) = Memory.read m' (a + k)) :
    Memory.readRange m a n = Memory.readRange m' a n := by
  induction n generalizing a with
  | zero => simp
  | succ n ih =>
    have h0 := h 0 (by omega)
    rw [Memory.readRange_succ, Memory.readRange_succ, ih fun k hk => ?_]
    · simpa using h0
    · have := h (k + 1) (by omega)
      rwa [show a + 1 + k = a + (k + 1) by omega]

/-- A canonical memory from `lo` on is canonical from any lower address on. -/
theorem Memory.wfFrom_mono {m : Memory} {lo lo' : Nat} (h : lo' ≤ lo) (hm : Memory.wfFrom lo m = true) :
    Memory.wfFrom lo' m = true := by
  cases m with
  | nil => rfl
  | cons c m =>
    simp only [Memory.wfFrom, Bool.and_eq_true, decide_eq_true_eq] at hm ⊢
    exact ⟨⟨by omega, hm.1.2⟩, hm.2⟩

/-- Below its first address a canonical memory lists nothing. -/
theorem Memory.read_of_lt {m : Memory} {lo a : Nat} (h : a < lo) (hm : Memory.wfFrom lo m = true) :
    Memory.read m a = Memory.unlisted := by
  induction m generalizing lo with
  | nil => rfl
  | cons c m ih =>
    obtain ⟨k, b⟩ := c
    simp only [Memory.wfFrom, Bool.and_eq_true, decide_eq_true_eq] at hm
    rw [Memory.read, if_neg (by omega)]
    exact ih (lo := k + 1) (by omega) hm.2

/-- A write keeps the canonical form. -/
theorem Memory.wfFrom_write {m : Memory} {lo a : Nat} (b : Byte) (h : lo ≤ a)
    (hm : Memory.wfFrom lo m = true) : Memory.wfFrom lo (Memory.write m a b) = true := by
  induction m generalizing lo with
  | nil =>
    by_cases hb : b = Memory.unlisted
    · simp [Memory.write, hb, Memory.wfFrom]
    · simp [Memory.write, hb, Memory.wfFrom, h]
  | cons c m ih =>
    obtain ⟨k, c⟩ := c
    have hm' := hm
    simp only [Memory.wfFrom, Bool.and_eq_true, decide_eq_true_eq, bne_iff_ne] at hm'
    obtain ⟨⟨hk, hc⟩, hr⟩ := hm'
    by_cases h1 : a < k
    · by_cases hb : b = Memory.unlisted
      · simpa [Memory.write, h1, hb] using hm
      · rw [Memory.write, if_pos h1, if_neg hb]
        simp only [Memory.wfFrom, Bool.and_eq_true, decide_eq_true_eq, bne_iff_ne]
        exact ⟨⟨h, hb⟩, ⟨by omega, hc⟩, hr⟩
    · by_cases h2 : a = k
      · by_cases hb : b = Memory.unlisted
        · simpa [Memory.write, h2, hb] using Memory.wfFrom_mono (by omega) hr
        · simp [Memory.write, h2, hb, Memory.wfFrom, hk, hr]
      · simp [Memory.write, h1, h2, Memory.wfFrom, hk, hc, ih (lo := k + 1) (by omega) hr]

/-- A write keeps the canonical form. -/
theorem Memory.wf_write {m : Memory} (a : Nat) (b : Byte) (hm : m.wf = true) :
    Memory.wf (Memory.write m a b) = true :=
  Memory.wfFrom_write b (Nat.zero_le a) hm

/-- Writing a range keeps the canonical form. -/
theorem Memory.wf_writeRange {m : Memory} (a : Nat) (bs : List Byte) (hm : m.wf = true) :
    Memory.wf (Memory.writeRange m a bs) = true := by
  induction bs generalizing m a with
  | nil => exact hm
  | cons b bs ih => exact ih (a + 1) (Memory.wf_write a b hm)

/-- A read after a write: the byte written at its address, every other byte as before. -/
theorem Memory.read_write {m : Memory} {lo : Nat} (a x : Nat) (b : Byte) (hm : Memory.wfFrom lo m = true) :
    Memory.read (Memory.write m a b) x = if x = a then b else Memory.read m x := by
  induction m generalizing lo with
  | nil =>
    by_cases hb : b = Memory.unlisted
    · simp [Memory.write, hb]
    · simp [Memory.write, hb, Memory.read]
  | cons c m ih =>
    obtain ⟨k, c⟩ := c
    have hm' := hm
    simp only [Memory.wfFrom, Bool.and_eq_true, decide_eq_true_eq, bne_iff_ne] at hm'
    obtain ⟨⟨hk, hc⟩, hr⟩ := hm'
    by_cases h1 : a < k
    · have hout : Memory.read ((k, c) :: m) a = Memory.unlisted :=
        Memory.read_of_lt (lo := k) h1 (by simp [Memory.wfFrom, hc, hr])
      by_cases hb : b = Memory.unlisted
      · rw [Memory.write, if_pos h1, if_pos hb]
        split
        · next hx => rw [hx, hout, hb]
        · rfl
      · rw [Memory.write, if_pos h1, if_neg hb, Memory.read]
    · by_cases h2 : a = k
      · subst h2
        by_cases hb : b = Memory.unlisted
        · rw [Memory.write, if_neg h1, if_pos rfl, if_pos hb, Memory.read]
          split
          · next hx => rw [hx, Memory.read_of_lt (Nat.lt_succ_self a) hr, hb]
          · rfl
        · rw [Memory.write, if_neg h1, if_pos rfl, if_neg hb, Memory.read, Memory.read]
          split <;> rfl
      · rw [Memory.write, if_neg h1, if_neg h2, Memory.read, Memory.read, ih (lo := k + 1) hr]
        split <;> split <;> first | rfl | omega

/-- The byte written is the byte read. -/
theorem Memory.read_write_same {m : Memory} (a : Nat) (b : Byte) (hm : m.wf = true) :
    Memory.read (Memory.write m a b) a = b := by
  simp [Memory.read_write a a b hm]

/-- A write leaves every other byte alone. -/
theorem Memory.read_write_other {m : Memory} {a x : Nat} (b : Byte) (hm : m.wf = true) (h : x ≠ a) :
    Memory.read (Memory.write m a b) x = Memory.read m x := by
  simp [Memory.read_write a x b hm, h]

/-- After a range is written, each of its addresses holds its byte, and every byte below it is as before. -/
theorem Memory.read_writeRange_lt {m : Memory} {a x : Nat} (bs : List Byte) (hm : m.wf = true) (h : x < a) :
    Memory.read (Memory.writeRange m a bs) x = Memory.read m x := by
  induction bs generalizing m a with
  | nil => rfl
  | cons b bs ih =>
    rw [Memory.writeRange, ih (Memory.wf_write a b hm) (by omega),
      Memory.read_write_other b hm (by omega)]

/-- Each address of a written range holds its byte. -/
theorem Memory.read_writeRange {m : Memory} {a k : Nat} {bs : List Byte} {b : Byte} (hm : m.wf = true)
    (h : bs[k]? = some b) : Memory.read (Memory.writeRange m a bs) (a + k) = b := by
  induction bs generalizing m a k with
  | nil => simp at h
  | cons c bs ih =>
    cases k with
    | zero =>
      rw [List.getElem?_cons_zero, Option.some.injEq] at h
      have hlt := Memory.read_writeRange_lt (a := a + 1) (x := a) bs (Memory.wf_write a c hm) (by omega)
      rw [Memory.writeRange, show a + 0 = a from rfl, hlt, Memory.read_write_same a c hm, h]
    | succ k =>
      rw [List.getElem?_cons_succ] at h
      rw [Memory.writeRange, show a + (k + 1) = a + 1 + k by omega]
      exact ih (Memory.wf_write a c hm) h

/-- The memory of the reset state is in canonical form. -/
theorem Memory.wf_reset : Memory.wf State.reset.code = true := rfl

/-- The memory of a loaded program is in canonical form. -/
theorem Memory.wf_load (cfg : Config) (bytes : List Byte) : Memory.wf (State.load cfg bytes).code = true :=
  Memory.wf_writeRange 0 bytes rfl

/-- Placing bytes keeps the canonical form. -/
theorem Memory.wf_place {s : State} (bytes : List Byte) (h : s.code.wf = true) :
    Memory.wf (s.place bytes).code = true :=
  Memory.wf_writeRange s.pc bytes h

end Sys2Proof.Machine
end

