-- ==== Sys2Proof/Laws/State.lean ====
section
/-! SUPPORT. One lemma per field per update, so that no later proof unfolds a record update. -/

namespace Sys2Proof.Machine

/-! ### State.fetched -/

@[simp] theorem State.fetched_pc (s : State) : s.fetched.pc = s.pc + 1 := rfl
@[simp] theorem State.fetched_stack (s : State) : s.fetched.stack = s.stack := rfl
@[simp] theorem State.fetched_run (s : State) : s.fetched.run = s.run := rfl
@[simp] theorem State.fetched_success (s : State) : s.fetched.success = s.success := rfl
@[simp] theorem State.fetched_cause (s : State) : s.fetched.cause = s.cause := rfl
@[simp] theorem State.fetched_code (s : State) : s.fetched.code = s.code := rfl
@[simp] theorem State.fetched_len (s : State) : s.fetched.len = s.len := rfl
@[simp] theorem State.fetched_cfg (s : State) : s.fetched.cfg = s.cfg := rfl

/-! ### State.advance -/

@[simp] theorem State.advance_pc (n : Nat) (s : State) : (s.advance n).pc = s.pc + n := rfl
@[simp] theorem State.advance_stack (n : Nat) (s : State) : (s.advance n).stack = s.stack := rfl
@[simp] theorem State.advance_run (n : Nat) (s : State) : (s.advance n).run = s.run := rfl
@[simp] theorem State.advance_success (n : Nat) (s : State) : (s.advance n).success = s.success := rfl
@[simp] theorem State.advance_cause (n : Nat) (s : State) : (s.advance n).cause = s.cause := rfl
@[simp] theorem State.advance_code (n : Nat) (s : State) : (s.advance n).code = s.code := rfl
@[simp] theorem State.advance_len (n : Nat) (s : State) : (s.advance n).len = s.len := rfl
@[simp] theorem State.advance_cfg (n : Nat) (s : State) : (s.advance n).cfg = s.cfg := rfl

/-! ### State.push -/

@[simp] theorem State.push_pc (v : Word) (s : State) : (s.push v).pc = s.pc := rfl
@[simp] theorem State.push_stack (v : Word) (s : State) : (s.push v).stack = v :: s.stack := rfl
@[simp] theorem State.push_run (v : Word) (s : State) : (s.push v).run = s.run := rfl
@[simp] theorem State.push_success (v : Word) (s : State) : (s.push v).success = s.success := rfl
@[simp] theorem State.push_cause (v : Word) (s : State) : (s.push v).cause = s.cause := rfl
@[simp] theorem State.push_code (v : Word) (s : State) : (s.push v).code = s.code := rfl
@[simp] theorem State.push_len (v : Word) (s : State) : (s.push v).len = s.len := rfl
@[simp] theorem State.push_cfg (v : Word) (s : State) : (s.push v).cfg = s.cfg := rfl

/-! ### State.withStack -/

@[simp] theorem State.withStack_pc (st : List Word) (s : State) : (s.withStack st).pc = s.pc := rfl
@[simp] theorem State.withStack_stack (st : List Word) (s : State) : (s.withStack st).stack = st := rfl
@[simp] theorem State.withStack_run (st : List Word) (s : State) : (s.withStack st).run = s.run := rfl
@[simp] theorem State.withStack_success (st : List Word) (s : State) : (s.withStack st).success = s.success := rfl
@[simp] theorem State.withStack_cause (st : List Word) (s : State) : (s.withStack st).cause = s.cause := rfl
@[simp] theorem State.withStack_code (st : List Word) (s : State) : (s.withStack st).code = s.code := rfl
@[simp] theorem State.withStack_len (st : List Word) (s : State) : (s.withStack st).len = s.len := rfl
@[simp] theorem State.withStack_cfg (st : List Word) (s : State) : (s.withStack st).cfg = s.cfg := rfl

/-! ### State.halt -/

@[simp] theorem State.halt_pc (ok : Bool) (c : Cause) (s : State) : (s.halt ok c).pc = s.pc := rfl
@[simp] theorem State.halt_stack (ok : Bool) (c : Cause) (s : State) : (s.halt ok c).stack = s.stack := rfl
@[simp] theorem State.halt_run (ok : Bool) (c : Cause) (s : State) : (s.halt ok c).run = .halted := rfl
@[simp] theorem State.halt_success (ok : Bool) (c : Cause) (s : State) : (s.halt ok c).success = ok := rfl
@[simp] theorem State.halt_cause (ok : Bool) (c : Cause) (s : State) : (s.halt ok c).cause = c := rfl
@[simp] theorem State.halt_code (ok : Bool) (c : Cause) (s : State) : (s.halt ok c).code = s.code := rfl
@[simp] theorem State.halt_len (ok : Bool) (c : Cause) (s : State) : (s.halt ok c).len = s.len := rfl
@[simp] theorem State.halt_cfg (ok : Bool) (c : Cause) (s : State) : (s.halt ok c).cfg = s.cfg := rfl

/-! ### State.applyReset -/

@[simp] theorem State.applyReset_pc (s : State) : s.applyReset.pc = 0 := rfl
@[simp] theorem State.applyReset_stack (s : State) : s.applyReset.stack = [] := rfl
@[simp] theorem State.applyReset_run (s : State) : s.applyReset.run = .running := rfl
@[simp] theorem State.applyReset_success (s : State) : s.applyReset.success = false := rfl
@[simp] theorem State.applyReset_cause (s : State) : s.applyReset.cause = .none := rfl
@[simp] theorem State.applyReset_code (s : State) : s.applyReset.code = s.code := rfl
@[simp] theorem State.applyReset_len (s : State) : s.applyReset.len = s.len := rfl
@[simp] theorem State.applyReset_cfg (s : State) : s.applyReset.cfg = s.cfg := rfl

/-! ### State.place -/

@[simp] theorem State.place_pc (s : State) (bytes : List Byte) : (s.place bytes).pc = s.pc := rfl
@[simp] theorem State.place_stack (s : State) (bytes : List Byte) : (s.place bytes).stack = s.stack := rfl
@[simp] theorem State.place_run (s : State) (bytes : List Byte) : (s.place bytes).run = .running := rfl
@[simp] theorem State.place_success (s : State) (bytes : List Byte) : (s.place bytes).success = false := rfl
@[simp] theorem State.place_cause (s : State) (bytes : List Byte) : (s.place bytes).cause = .none := rfl
@[simp] theorem State.place_code (s : State) (bytes : List Byte) : (s.place bytes).code = Memory.writeRange s.code s.pc bytes := rfl
@[simp] theorem State.place_len (s : State) (bytes : List Byte) : (s.place bytes).len = max s.len (s.pc + bytes.length) := rfl
@[simp] theorem State.place_cfg (s : State) (bytes : List Byte) : (s.place bytes).cfg = s.cfg := rfl

/-! ### State.load -/

@[simp] theorem State.load_pc (cfg : Config) (bytes : List Byte) : (State.load cfg bytes).pc = 0 := rfl
@[simp] theorem State.load_stack (cfg : Config) (bytes : List Byte) : (State.load cfg bytes).stack = [] := rfl
@[simp] theorem State.load_run (cfg : Config) (bytes : List Byte) : (State.load cfg bytes).run = .running := rfl
@[simp] theorem State.load_success (cfg : Config) (bytes : List Byte) : (State.load cfg bytes).success = false := rfl
@[simp] theorem State.load_cause (cfg : Config) (bytes : List Byte) : (State.load cfg bytes).cause = .none := rfl
@[simp] theorem State.load_code (cfg : Config) (bytes : List Byte) : (State.load cfg bytes).code = Memory.writeRange [] 0 bytes := rfl
@[simp] theorem State.load_len (cfg : Config) (bytes : List Byte) : (State.load cfg bytes).len = bytes.length := rfl
@[simp] theorem State.load_cfg (cfg : Config) (bytes : List Byte) : (State.load cfg bytes).cfg = cfg := rfl

/-! ### State.reset -/

@[simp] theorem State.reset_pc : State.reset.pc = 0 := rfl
@[simp] theorem State.reset_stack : State.reset.stack = [] := rfl
@[simp] theorem State.reset_run : State.reset.run = .running := rfl
@[simp] theorem State.reset_success : State.reset.success = false := rfl
@[simp] theorem State.reset_cause : State.reset.cause = .none := rfl
@[simp] theorem State.reset_code : State.reset.code = [] := rfl
@[simp] theorem State.reset_len : State.reset.len = 0 := rfl
@[simp] theorem State.reset_cfg : State.reset.cfg = Config.standard := rfl

/-! ### What depends on some fields only -/

@[simp] theorem State.full_fetched (s : State) : s.fetched.full = s.full := rfl
@[simp] theorem State.depth_fetched (s : State) : s.fetched.depth = s.depth := rfl
@[simp] theorem State.codeFits_fetched (s : State) : s.fetched.codeFits = s.codeFits := rfl

/-- `full` says what R36 says. -/
theorem State.full_iff (s : State) : s.full = true ↔ s.cfg.stackDepth = some s.depth := by
  cases h : s.cfg.stackDepth with
  | none => simp [State.full, h]
  | some d => simp [State.full, h, eq_comm]

/-- An infinite STACK_DEPTH is never reached (R36). -/
theorem State.full_of_unbounded {s : State} (h : s.cfg.stackDepth = none) : s.full = false := by
  simp [State.full, h]

/-- `codeFits` says what R25 says. -/
theorem State.codeFits_iff (s : State) :
    s.codeFits = true ↔ ∀ w, s.cfg.pcWidth = some w → s.len ≤ 2 ^ w - 1 := by
  cases h : s.cfg.pcWidth with
  | none => simp [State.codeFits, h]
  | some w => simp [State.codeFits, h]

end Sys2Proof.Machine
end

