-- ==== Sys2Proof/Laws/Operands.lean ====
section
/-! SUPPORT. What each operand form can answer, said once; proofs cite these and unfold no form. -/

namespace Sys2Proof.Machine

/-- Raising a failure is a halt without success, and always a next state (R187). -/
@[simp] theorem raise_eq (c : Cause) (s : State) : raise c s = .next (s.halt false c) := rfl

theorem unary_cons {s : State} {a : Word} {rest : List Word} (f : Word → Word) (h : s.stack = a :: rest) :
    unary f s = .next (s.fetched.withStack (f a :: rest)) := by
  simp [unary, h]

theorem unary_underflow {s : State} (f : Word → Word) (h : s.stack.length < 1) :
    unary f s = .next (s.fetched.halt false .stackUnderflow) := by
  rcases hs : s.stack with _ | ⟨a, rest⟩
  · simp [unary, hs]
  · simp [hs] at h

/-- A form of arity 1 completes on a Word, else underflows (R84). -/
theorem unary_cases {s t : State} {f : Word → Word} (h : unary f s = .next t) :
    (∃ a rest, s.stack = a :: rest ∧ t = s.fetched.withStack (f a :: rest)) ∨
    (s.stack.length < 1 ∧ t = s.fetched.halt false .stackUnderflow) := by
  rcases hs : s.stack with _ | ⟨a, rest⟩
  · rw [unary_underflow f (by simp [hs])] at h
    exact .inr ⟨by simp, by cases h; rfl⟩
  · rw [unary_cons f hs] at h
    exact .inl ⟨a, rest, rfl, by cases h; rfl⟩

theorem unary_total (f : Word → Word) (s : State) : ∃ t, unary f s = .next t := by
  rcases hs : s.stack with _ | ⟨a, rest⟩
  · exact ⟨_, unary_underflow f (by simp [hs])⟩
  · exact ⟨_, unary_cons f hs⟩

theorem binary_cons {s : State} {a b : Word} {rest : List Word} (f : Word → Word → Word)
    (h : s.stack = a :: b :: rest) : binary f s = .next (s.fetched.withStack (f a b :: rest)) := by
  simp [binary, h]

theorem binary_underflow {s : State} (f : Word → Word → Word) (h : s.stack.length < 2) :
    binary f s = .next (s.fetched.halt false .stackUnderflow) := by
  rcases hs : s.stack with _ | ⟨a, _ | ⟨b, rest⟩⟩
  · simp [binary, hs]
  · simp [binary, hs]
  · simp only [hs, List.length_cons] at h
    omega

/-- A form of arity 2 completes on two Words, else underflows with nothing popped (R84). -/
theorem binary_cases {s t : State} {f : Word → Word → Word} (h : binary f s = .next t) :
    (∃ a b rest, s.stack = a :: b :: rest ∧ t = s.fetched.withStack (f a b :: rest)) ∨
    (s.stack.length < 2 ∧ t = s.fetched.halt false .stackUnderflow) := by
  by_cases hl : s.stack.length < 2
  · rw [binary_underflow f hl] at h
    exact .inr ⟨hl, by cases h; rfl⟩
  · rcases hs : s.stack with _ | ⟨a, _ | ⟨b, rest⟩⟩
    · simp [hs] at hl
    · simp [hs] at hl
    · rw [binary_cons f hs] at h
      exact .inl ⟨a, b, rest, rfl, by cases h; rfl⟩

theorem binary_total (f : Word → Word → Word) (s : State) : ∃ t, binary f s = .next t := by
  rcases hs : s.stack with _ | ⟨a, _ | ⟨b, rest⟩⟩
  · exact ⟨_, binary_underflow f (by simp [hs])⟩
  · exact ⟨_, binary_underflow f (by simp [hs])⟩
  · exact ⟨_, binary_cons f hs⟩

theorem ternary_cons {s : State} {a b c : Word} {rest : List Word} (f : Word → Word → Word → Word)
    (h : s.stack = a :: b :: c :: rest) : ternary f s = .next (s.fetched.withStack (f a b c :: rest)) := by
  simp [ternary, h]

theorem ternary_underflow {s : State} (f : Word → Word → Word → Word) (h : s.stack.length < 3) :
    ternary f s = .next (s.fetched.halt false .stackUnderflow) := by
  rcases hs : s.stack with _ | ⟨a, _ | ⟨b, _ | ⟨c, rest⟩⟩⟩
  · simp [ternary, hs]
  · simp [ternary, hs]
  · simp [ternary, hs]
  · simp only [hs, List.length_cons] at h
    omega

/-- A form of arity 3 completes on three Words, else underflows with nothing popped (R84). -/
theorem ternary_cases {s t : State} {f : Word → Word → Word → Word} (h : ternary f s = .next t) :
    (∃ a b c rest, s.stack = a :: b :: c :: rest ∧ t = s.fetched.withStack (f a b c :: rest)) ∨
    (s.stack.length < 3 ∧ t = s.fetched.halt false .stackUnderflow) := by
  by_cases hl : s.stack.length < 3
  · rw [ternary_underflow f hl] at h
    exact .inr ⟨hl, by cases h; rfl⟩
  · rcases hs : s.stack with _ | ⟨a, _ | ⟨b, _ | ⟨c, rest⟩⟩⟩
    · simp [hs] at hl
    · simp [hs] at hl
    · simp [hs] at hl
    · rw [ternary_cons f hs] at h
      exact .inl ⟨a, b, c, rest, rfl, by cases h; rfl⟩

theorem ternary_total (f : Word → Word → Word → Word) (s : State) : ∃ t, ternary f s = .next t := by
  rcases hs : s.stack with _ | ⟨a, _ | ⟨b, _ | ⟨c, rest⟩⟩⟩
  · exact ⟨_, ternary_underflow f (by simp [hs])⟩
  · exact ⟨_, ternary_underflow f (by simp [hs])⟩
  · exact ⟨_, ternary_underflow f (by simp [hs])⟩
  · exact ⟨_, ternary_cons f hs⟩

theorem discard_cons {s : State} {a : Word} {rest : List Word} (h : s.stack = a :: rest) :
    discard s = .next (s.fetched.withStack rest) := by
  simp [discard, h]

theorem discard_underflow {s : State} (h : s.stack.length < 1) :
    discard s = .next (s.fetched.halt false .stackUnderflow) := by
  rcases hs : s.stack with _ | ⟨a, rest⟩
  · simp [discard, hs]
  · simp [hs] at h

/-- POP drops a Word, else underflows (R100). -/
theorem discard_cases {s t : State} (h : discard s = .next t) :
    (∃ a rest, s.stack = a :: rest ∧ t = s.fetched.withStack rest) ∨
    (s.stack.length < 1 ∧ t = s.fetched.halt false .stackUnderflow) := by
  rcases hs : s.stack with _ | ⟨a, rest⟩
  · rw [discard_underflow (by simp [hs])] at h
    exact .inr ⟨by simp, by cases h; rfl⟩
  · rw [discard_cons hs] at h
    exact .inl ⟨a, rest, rfl, by cases h; rfl⟩

theorem discard_total (s : State) : ∃ t, discard s = .next t := by
  rcases hs : s.stack with _ | ⟨a, rest⟩
  · exact ⟨_, discard_underflow (by simp [hs])⟩
  · exact ⟨_, discard_cons hs⟩

theorem pushConst_total (v : Word) (s : State) : ∃ t, pushConst v s = .next t := by
  unfold pushConst
  split <;> exact ⟨_, rfl⟩

theorem pushImm_total (n : Nat) (v : Word) (s : State) : ∃ t, pushImm n v s = .next t := by
  unfold pushImm
  split
  · exact ⟨_, rfl⟩
  · split <;> exact ⟨_, rfl⟩

/-- A push of a constant overflows on a full stack, else completes (R101). -/
theorem pushConst_cases {s t : State} {v : Word} (h : pushConst v s = .next t) :
    (s.full = true ∧ t = s.fetched.halt false .stackOverflow) ∨
    (s.full = false ∧ t = s.fetched.push v) := by
  cases hf : s.full
  · simp only [pushConst, hf] at h
    exact .inr ⟨rfl, by cases h; rfl⟩
  · simp only [pushConst, hf] at h
    exact .inl ⟨rfl, by cases h; rfl⟩

/-- A push of an immediate is truncated, or overflows, or completes, tested in that order (R102, R186). -/
theorem pushImm_cases {s t : State} {n : Nat} {v : Word} (h : pushImm n v s = .next t) :
    (s.len < s.pc + 1 + n ∧ t = s.fetched.halt false .truncatedPush) ∨
    (s.pc + 1 + n ≤ s.len ∧ s.full = true ∧ t = s.fetched.halt false .stackOverflow) ∨
    (s.pc + 1 + n ≤ s.len ∧ s.full = false ∧ t = (s.fetched.push v).advance n) := by
  by_cases hl : s.len < s.pc + 1 + n
  · simp only [pushImm, State.fetched_pc, hl, if_true] at h
    exact .inl ⟨hl, by cases h; rfl⟩
  · cases hf : s.full
    · simp only [pushImm, State.fetched_pc, hl, if_false, hf] at h
      exact .inr (.inr ⟨by omega, rfl, by cases h; rfl⟩)
    · simp only [pushImm, State.fetched_pc, hl, if_false, hf] at h
      exact .inr (.inl ⟨by omega, rfl, by cases h; rfl⟩)

/-- An unknown byte is a no-op, or a failure under the parameter (R88). -/
theorem unknownOpcode_cases {s t : State} (h : unknownOpcode s = .next t) :
    (s.cfg.unknownOpcodeFails = true ∧ t = s.fetched.halt false .unknownOpcode) ∨
    (s.cfg.unknownOpcodeFails = false ∧ t = s.fetched) := by
  cases hf : s.cfg.unknownOpcodeFails
  · simp only [unknownOpcode, hf] at h
    exact .inr ⟨rfl, by cases h; rfl⟩
  · simp only [unknownOpcode, hf] at h
    exact .inl ⟨rfl, by cases h; rfl⟩

end Sys2Proof.Machine
end

