-- ==== Sys2Proof/Laws/PerInstr.lean ====
section
/-! SUPPORT. Statements for all instructions, one lemma per constructor. -/

namespace Sys2Proof.Laws.EncodedLength

/-- An encoding is as long as its opcode byte alone says (R61), and that byte is one of the opcode map (R63). -/
def Statement (i : Instr) : Prop :=
  (encode i).length = ilen (opcodeOf i) ∧ ∀ v, instrOf (opcodeOf i) v ≠ none

/-- The statement, from the map having a row for the opcode byte. -/
theorem of_row {i : Instr} (h : ∀ v, instrOf (opcodeOf i) v ≠ none) : Statement i :=
  ⟨by simp [encode, ilen, Nat.add_comm], h⟩

theorem stop : Statement .stop := of_row fun _ => nofun
theorem add : Statement .add := of_row fun _ => nofun
theorem mul : Statement .mul := of_row fun _ => nofun
theorem sub : Statement .sub := of_row fun _ => nofun
theorem div : Statement .div := of_row fun _ => nofun
theorem sdiv : Statement .sdiv := of_row fun _ => nofun
theorem mod : Statement .mod := of_row fun _ => nofun
theorem smod : Statement .smod := of_row fun _ => nofun
theorem addmod : Statement .addmod := of_row fun _ => nofun
theorem mulmod : Statement .mulmod := of_row fun _ => nofun
theorem exp : Statement .exp := of_row fun _ => nofun
theorem signextend : Statement .signextend := of_row fun _ => nofun
theorem lt : Statement .lt := of_row fun _ => nofun
theorem gt : Statement .gt := of_row fun _ => nofun
theorem slt : Statement .slt := of_row fun _ => nofun
theorem sgt : Statement .sgt := of_row fun _ => nofun
theorem eq : Statement .eq := of_row fun _ => nofun
theorem iszero : Statement .iszero := of_row fun _ => nofun
theorem pop : Statement .pop := of_row fun _ => nofun
theorem push0 : Statement .push0 := of_row fun _ => nofun
theorem push1 (imm : Word) : Statement (.push1 imm) := of_row fun _ => nofun
theorem push2 (imm : Word) : Statement (.push2 imm) := of_row fun _ => nofun
theorem push3 (imm : Word) : Statement (.push3 imm) := of_row fun _ => nofun
theorem push4 (imm : Word) : Statement (.push4 imm) := of_row fun _ => nofun
theorem push5 (imm : Word) : Statement (.push5 imm) := of_row fun _ => nofun
theorem push6 (imm : Word) : Statement (.push6 imm) := of_row fun _ => nofun
theorem push7 (imm : Word) : Statement (.push7 imm) := of_row fun _ => nofun
theorem push8 (imm : Word) : Statement (.push8 imm) := of_row fun _ => nofun
theorem push9 (imm : Word) : Statement (.push9 imm) := of_row fun _ => nofun
theorem push10 (imm : Word) : Statement (.push10 imm) := of_row fun _ => nofun
theorem push11 (imm : Word) : Statement (.push11 imm) := of_row fun _ => nofun
theorem push12 (imm : Word) : Statement (.push12 imm) := of_row fun _ => nofun
theorem push13 (imm : Word) : Statement (.push13 imm) := of_row fun _ => nofun
theorem push14 (imm : Word) : Statement (.push14 imm) := of_row fun _ => nofun
theorem push15 (imm : Word) : Statement (.push15 imm) := of_row fun _ => nofun
theorem push16 (imm : Word) : Statement (.push16 imm) := of_row fun _ => nofun
theorem push17 (imm : Word) : Statement (.push17 imm) := of_row fun _ => nofun
theorem push18 (imm : Word) : Statement (.push18 imm) := of_row fun _ => nofun
theorem push19 (imm : Word) : Statement (.push19 imm) := of_row fun _ => nofun
theorem push20 (imm : Word) : Statement (.push20 imm) := of_row fun _ => nofun
theorem push21 (imm : Word) : Statement (.push21 imm) := of_row fun _ => nofun
theorem push22 (imm : Word) : Statement (.push22 imm) := of_row fun _ => nofun
theorem push23 (imm : Word) : Statement (.push23 imm) := of_row fun _ => nofun
theorem push24 (imm : Word) : Statement (.push24 imm) := of_row fun _ => nofun
theorem push25 (imm : Word) : Statement (.push25 imm) := of_row fun _ => nofun
theorem push26 (imm : Word) : Statement (.push26 imm) := of_row fun _ => nofun
theorem push27 (imm : Word) : Statement (.push27 imm) := of_row fun _ => nofun
theorem push28 (imm : Word) : Statement (.push28 imm) := of_row fun _ => nofun
theorem push29 (imm : Word) : Statement (.push29 imm) := of_row fun _ => nofun
theorem push30 (imm : Word) : Statement (.push30 imm) := of_row fun _ => nofun
theorem push31 (imm : Word) : Statement (.push31 imm) := of_row fun _ => nofun
theorem push32 (imm : Word) : Statement (.push32 imm) := of_row fun _ => nofun

end Sys2Proof.Laws.EncodedLength
end

