-- ==== Sys2Proof/Laws/Step.lean ====
section
/-! SUPPORT. What an instruction and a step can do, said once: invariants are derived from these and unfold no step. -/

namespace Sys2Proof.Machine

theorem State.length_fetchBytes (s : State) : s.fetchBytes.length = min (s.len - s.pc) maxInstrLen := by
  simp [State.fetchBytes]

/-- Nothing is fetched exactly when `pc ≥ LEN` (R81). -/
theorem State.fetchBytes_eq_nil_iff (s : State) : s.fetchBytes = [] ↔ s.len ≤ s.pc := by
  rw [← List.length_eq_zero_iff, State.length_fetchBytes, maxInstrLen]
  omega

/-- Below LEN the first byte fetched is the one at `pc` (R82). -/
theorem State.fetchBytes_cons {s : State} (h : s.pc < s.len) :
    s.fetchBytes = Memory.read s.code s.pc ::
      Memory.readRange s.code (s.pc + 1) (min (s.len - s.pc) maxInstrLen - 1) := by
  obtain ⟨k, hk⟩ : ∃ k, min (s.len - s.pc) maxInstrLen = k + 1 :=
    ⟨min (s.len - s.pc) maxInstrLen - 1, by simp only [maxInstrLen]; omega⟩
  rw [State.fetchBytes, hk, Memory.readRange_succ, Nat.add_sub_cancel]

/-- What an instruction can do to a state. A failure changes `pc` and the status only. A completed instruction advances
`pc` by its length and replaces the `pops` top Words by `pushes` new ones. -/
inductive ExecEffect (i : Instr) (s : State) : State → Prop where
  | underflow (h : s.depth < i.pops) : ExecEffect i s (s.fetched.halt false .stackUnderflow)
  | truncated (hi : 0 < i.immLen) (h : s.len < s.pc + 1 + i.immLen) :
      ExecEffect i s (s.fetched.halt false .truncatedPush)
  | overflow (hp : i.pops = 0) (hq : i.pushes = 1) (hl : 0 < i.immLen → s.pc + 1 + i.immLen ≤ s.len)
      (h : s.full = true) : ExecEffect i s (s.fetched.halt false .stackOverflow)
  | stop (h : i = .stop) : ExecEffect i s (s.fetched.halt true .stop)
  | completes (hi : i ≠ .stop) (hd : i.pops ≤ s.depth) (hl : 0 < i.immLen → s.pc + 1 + i.immLen ≤ s.len)
      (hf : i.pops = 0 → s.full = false) (new : List Word) (hn : new.length = i.pushes) :
      ExecEffect i s ((s.fetched.withStack (new ++ s.stack.drop i.pops)).advance i.immLen)

theorem ExecEffect.of_unary {i : Instr} {s t : State} {f : Word → Word} (hp : i.pops = 1) (hq : i.pushes = 1)
    (hl : i.immLen = 0) (hi : i ≠ .stop) (h : unary f s = .next t) : ExecEffect i s t := by
  rcases unary_cases h with ⟨a, rest, hs, rfl⟩ | ⟨hd, rfl⟩
  · have := ExecEffect.completes (s := s) hi (by simp [State.depth, hs, hp]) (by omega) (by omega) [f a] (by simp [hq])
    simpa [hs, hp, hl, State.advance, State.withStack] using this
  · exact .underflow (by rw [hp]; exact hd)

theorem ExecEffect.of_binary {i : Instr} {s t : State} {f : Word → Word → Word} (hp : i.pops = 2) (hq : i.pushes = 1)
    (hl : i.immLen = 0) (hi : i ≠ .stop) (h : binary f s = .next t) : ExecEffect i s t := by
  rcases binary_cases h with ⟨a, b, rest, hs, rfl⟩ | ⟨hd, rfl⟩
  · have := ExecEffect.completes (s := s) hi (by simp [State.depth, hs, hp]) (by omega) (by omega) [f a b] (by simp [hq])
    simpa [hs, hp, hl, State.advance, State.withStack] using this
  · exact .underflow (by rw [hp]; exact hd)

theorem ExecEffect.of_ternary {i : Instr} {s t : State} {f : Word → Word → Word → Word} (hp : i.pops = 3)
    (hq : i.pushes = 1) (hl : i.immLen = 0) (hi : i ≠ .stop) (h : ternary f s = .next t) : ExecEffect i s t := by
  rcases ternary_cases h with ⟨a, b, c, rest, hs, rfl⟩ | ⟨hd, rfl⟩
  · have := ExecEffect.completes (s := s) hi (by simp [State.depth, hs, hp]) (by omega) (by omega) [f a b c] (by simp [hq])
    simpa [hs, hp, hl, State.advance, State.withStack] using this
  · exact .underflow (by rw [hp]; exact hd)

theorem ExecEffect.of_pushImm {i : Instr} {s t : State} {n : Nat} {v : Word} (hp : i.pops = 0) (hq : i.pushes = 1)
    (hl : i.immLen = n) (hn : 0 < n) (hi : i ≠ .stop) (h : pushImm n v s = .next t) : ExecEffect i s t := by
  rcases pushImm_cases h with ⟨h1, rfl⟩ | ⟨h1, h2, rfl⟩ | ⟨h1, h2, rfl⟩
  · exact .truncated (by omega) (by omega)
  · exact .overflow hp hq (by omega) h2
  · have := ExecEffect.completes (s := s) hi (by omega) (by omega) (fun _ => h2) [v] (by simp [hq])
    simpa [hp, hl, State.advance, State.withStack, State.push, State.fetched] using this

/-- What `exec` answers is an effect of its instruction. -/
theorem exec_effect {i : Instr} {s t : State} (h : exec i s = .next t) : ExecEffect i s t := by
  cases i with
  | stop =>
    cases h
    exact .stop rfl
  | pop =>
    rcases discard_cases h with ⟨a, rest, hs, rfl⟩ | ⟨hd, rfl⟩
    · have := ExecEffect.completes (i := .pop) (s := s) (by simp) (by simp [State.depth, hs, Instr.pops])
        (by simp [Instr.immLen]) (by simp [Instr.pops]) [] rfl
      simpa [hs, Instr.pops, Instr.immLen, State.advance, State.withStack] using this
    · exact .underflow hd
  | push0 =>
    rcases pushConst_cases h with ⟨hf, rfl⟩ | ⟨hf, rfl⟩
    · exact .overflow rfl rfl (by simp [Instr.immLen]) hf
    · have := ExecEffect.completes (i := .push0) (s := s) (by simp) (by simp [Instr.pops]) (by simp [Instr.immLen])
        (fun _ => hf) [0] rfl
      simpa [Instr.pops, Instr.immLen, State.advance, State.withStack, State.push, State.fetched] using this
  | iszero => exact .of_unary rfl rfl rfl (by simp) h
  | addmod => exact .of_ternary rfl rfl rfl (by simp) h
  | mulmod => exact .of_ternary rfl rfl rfl (by simp) h
  | add | mul | sub | div | sdiv | mod | smod | exp | signextend | lt | gt | slt | sgt | eq =>
    exact .of_binary rfl rfl rfl (by simp) h
  | _ => exact .of_pushImm rfl rfl rfl (by simp [Instr.immLen]) (by simp) h

/-- Every instruction answers a next state: none faults and none is refused (R80). -/
theorem exec_total (i : Instr) (s : State) : ∃ t, exec i s = .next t := by
  cases i with
  | stop => exact ⟨_, rfl⟩
  | pop => exact discard_total s
  | push0 => exact pushConst_total 0 s
  | iszero => exact unary_total _ s
  | addmod | mulmod => exact ternary_total _ s
  | add | mul | sub | div | sdiv | mod | smod | exp | signextend | lt | gt | slt | sgt | eq => exact binary_total _ s
  | _ => exact pushImm_total _ _ s

/-- A step of a RUNNING state whose program fits is what its decoded bytes say. -/
theorem step_of_running {s : State} (hr : s.run = .running) (hf : s.codeFits = true) :
    step s =
      match decode s.fetchBytes with
      | .instr i _ => exec i s
      | .noBytes => endOfCode s
      | .missingImmediate _ => truncatedPush s
      | .unknownOpcode _ => unknownOpcode s := by
  simp only [step, hr, hf, if_true] <;> rfl

/-- What a step can do: nothing once HALTED; else the end-of-code halt, the decoded instruction, a truncated push or an
unknown byte. -/
theorem step_cases {s t : State} (h : step s = .next t) :
    (s.run = .halted ∧ t = s) ∨
    (s.run = .running ∧ s.codeFits = true ∧
      ((decode s.fetchBytes = .noBytes ∧ t = s.halt true .endOfCode) ∨
       (∃ i rest, decode s.fetchBytes = .instr i rest ∧ exec i s = .next t) ∨
       (∃ op, decode s.fetchBytes = .missingImmediate op ∧ t = s.fetched.halt false .truncatedPush) ∨
       (∃ op, decode s.fetchBytes = .unknownOpcode op ∧ unknownOpcode s = .next t))) := by
  cases hr : s.run with
  | halted =>
    simp only [step, hr] at h
    cases h
    exact .inl ⟨rfl, rfl⟩
  | running =>
    cases hf : s.codeFits with
    | false => simp [step, hr, hf] at h
    | true =>
      refine .inr ⟨rfl, rfl, ?_⟩
      simp only [step, hr, hf, if_true] at h
      cases hd : decode s.fetchBytes with
      | instr i rest =>
        simp only [hd] at h
        exact .inr (.inl ⟨i, rest, rfl, h⟩)
      | noBytes =>
        simp only [hd] at h
        cases h
        exact .inl ⟨rfl, rfl⟩
      | missingImmediate op =>
        simp only [hd] at h
        cases h
        exact .inr (.inr (.inl ⟨op, rfl, rfl⟩))
      | unknownOpcode op =>
        simp only [hd] at h
        exact .inr (.inr (.inr ⟨op, rfl, h⟩))

end Sys2Proof.Machine
end

