-- ==== Sys2Proof/Machine/Assembly.lean ====
section
/-! DEFINITION. The assembly notation (R67) and its one pseudo-instruction (R68), as the program bytes they stand for.
They are ways to write a program; the machine sees the bytes only. -/

namespace Sys2Proof.Machine

/-- One item of a program in the notation of R67. -/
inductive SourceItem where
  /-- a mnemonic with its operand -/
  | instr (i : Instr)
  /-- the pseudo-instruction `PUSH v` (R68) -/
  | push (v : Word)
  /-- `BYTE 0x..`, one raw byte -/
  | raw (b : Byte)
  deriving DecidableEq, Repr

/-- The number of bytes in the shortest big-endian form of a number, at most `fuel`. -/
def byteLength : Nat → Nat → Nat
  | 0, _ => 0
  | fuel + 1, v => if v = 0 then 0 else byteLength fuel (v / 256) + 1

/-- `n = max(1, number of bytes in the shortest big-endian form of v)`: `PUSH v` never stands for PUSH0 (R68). -/
def pushSize (v : Word) : Nat :=
  max 1 (byteLength 32 v.toNat)

/-- The bytes of an item (R67, R68). -/
def SourceItem.bytes : SourceItem → List Byte
  | .instr i => encode i
  | .push v => BitVec.ofNat 8 (0x5f + pushSize v) :: beBytes (pushSize v) v.toNat
  | .raw b => [b]

/-- "The program's bytes are the instructions' bytes in order, the first at index 0" (R67). -/
def assemble : List SourceItem → List Byte
  | [] => []
  | x :: xs => x.bytes ++ assemble xs

end Sys2Proof.Machine
end

