-- ==== Sys2Proof/Tests/Slice0.lean ====
section
/-! SUPPORT. Tests of the model: the well-formedness smoke tests, every constructor's decoding from bytes written out from
the opcode map, one step on a small state per instruction with the vectors of spec/95_test_vectors.md (named T…, S…, P…
as there), and for every obligation with hypotheses a witness that meets them. -/

namespace Sys2Proof.Tests

open Sys2Proof Sys2Proof.Machine Sys2Proof.Claims

/-! ### Helpers -/

-- One thread: elaborated side by side, the kernel evaluations below wait for one another in a thread each.
set_option Elab.async false

/-- A program right after reset, with a stack put in place. -/
def at0 (bytes : List Byte) (st : List Word) : State :=
  { State.load Config.standard bytes with stack := st }

/-- The same with chosen parameters. -/
def atCfg (cfg : Config) (bytes : List Byte) (st : List Word) : State :=
  { State.load cfg bytes with stack := st }

/-- What a test looks at: the stack, `pc` and the cause. -/
def seen : Answer → Option (List Word × Nat × Cause)
  | .next t => some (t.stack, t.pc, t.cause)
  | .fault _ => none
  | .refused _ => none

/-- One step of a program on a stack. -/
def one (bytes : List Byte) (st : List Word) : Option (List Word × Nat × Cause) :=
  seen (step (at0 bytes st))

theorem ready_of {s : State} (hr : s.run = .running) (hf : s.codeFits = true) : Ready s :=
  ⟨hr, (State.codeFits_iff s).1 hf⟩

/-! ### Well-formedness: each ill-formed term is refused -/

theorem test_wf_push1 : (Instr.push1 255).wf = true ∧ (Instr.push1 256).wf = false := by decide +kernel

theorem test_wf_push2 : (Instr.push2 0xffff).wf = true ∧ (Instr.push2 0x10000).wf = false := by decide +kernel

theorem test_wf_push31 : (Instr.push31 (BitVec.ofNat 256 (2 ^ 248 - 1))).wf = true ∧
    (Instr.push31 (BitVec.ofNat 256 (2 ^ 248))).wf = false := by decide +kernel

theorem test_wf_push32 : (Instr.push32 0xffffffffffffffffffffffffffffffffffffffffffffffffffffffffffffffff).wf = true ∧ Instr.add.wf = true := by decide +kernel

/-! ### Decoding, from the opcode map of R63 and the formats of R60 -/

theorem test_decode_stop_and_arithmetic :
    decode [0x00] = .instr .stop [] ∧
    decode [0x01] = .instr .add [] ∧
    decode [0x02] = .instr .mul [] ∧
    decode [0x03] = .instr .sub [] ∧
    decode [0x04] = .instr .div [] ∧
    decode [0x05] = .instr .sdiv [] ∧
    decode [0x06] = .instr .mod [] ∧
    decode [0x07] = .instr .smod [] ∧
    decode [0x08] = .instr .addmod [] ∧
    decode [0x09] = .instr .mulmod [] ∧
    decode [0x0a] = .instr .exp [] ∧
    decode [0x0b] = .instr .signextend [] := by decide

theorem test_decode_comparison :
    decode [0x10] = .instr .lt [] ∧
    decode [0x11] = .instr .gt [] ∧
    decode [0x12] = .instr .slt [] ∧
    decode [0x13] = .instr .sgt [] ∧
    decode [0x14] = .instr .eq [] ∧
    decode [0x15] = .instr .iszero [] := by decide

theorem test_decode_pop_and_push0 :
    decode [0x50] = .instr .pop [] ∧
    decode [0x5f] = .instr .push0 [] := by decide

/-- The immediate bytes are 01 02 … in order, the first the most significant (R62, T14). -/
theorem test_decode_push1_to_8 :
    decode [0x60, 0x01] =
      .instr (.push1 0x01) [] ∧
    decode [0x61, 0x01, 0x02] =
      .instr (.push2 0x0102) [] ∧
    decode [0x62, 0x01, 0x02, 0x03] =
      .instr (.push3 0x010203) [] ∧
    decode [0x63, 0x01, 0x02, 0x03, 0x04] =
      .instr (.push4 0x01020304) [] ∧
    decode [0x64, 0x01, 0x02, 0x03, 0x04, 0x05] =
      .instr (.push5 0x0102030405) [] ∧
    decode [0x65, 0x01, 0x02, 0x03, 0x04, 0x05, 0x06] =
      .instr (.push6 0x010203040506) [] ∧
    decode [0x66, 0x01, 0x02, 0x03, 0x04, 0x05, 0x06, 0x07] =
      .instr (.push7 0x01020304050607) [] ∧
    decode [0x67, 0x01, 0x02, 0x03, 0x04, 0x05, 0x06, 0x07, 0x08] =
      .instr (.push8 0x0102030405060708) [] := by decide +kernel

/-- The immediate bytes are 01 02 … in order, the first the most significant (R62, T14). -/
theorem test_decode_push9_to_16 :
    decode [0x68, 0x01, 0x02, 0x03, 0x04, 0x05, 0x06, 0x07, 0x08, 0x09] =
      .instr (.push9 0x010203040506070809) [] ∧
    decode [0x69, 0x01, 0x02, 0x03, 0x04, 0x05, 0x06, 0x07, 0x08, 0x09, 0x0a] =
      .instr (.push10 0x0102030405060708090a) [] ∧
    decode [0x6a, 0x01, 0x02, 0x03, 0x04, 0x05, 0x06, 0x07, 0x08, 0x09, 0x0a, 0x0b] =
      .instr (.push11 0x0102030405060708090a0b) [] ∧
    decode [0x6b, 0x01, 0x02, 0x03, 0x04, 0x05, 0x06, 0x07, 0x08, 0x09, 0x0a, 0x0b, 0x0c] =
      .instr (.push12 0x0102030405060708090a0b0c) [] ∧
    decode [0x6c, 0x01, 0x02, 0x03, 0x04, 0x05, 0x06, 0x07, 0x08, 0x09, 0x0a, 0x0b, 0x0c, 0x0d] =
      .instr (.push13 0x0102030405060708090a0b0c0d) [] ∧
    decode [0x6d, 0x01, 0x02, 0x03, 0x04, 0x05, 0x06, 0x07, 0x08, 0x09, 0x0a, 0x0b, 0x0c, 0x0d, 0x0e] =
      .instr (.push14 0x0102030405060708090a0b0c0d0e) [] ∧
    decode [0x6e, 0x01, 0x02, 0x03, 0x04, 0x05, 0x06, 0x07, 0x08, 0x09, 0x0a, 0x0b, 0x0c, 0x0d, 0x0e, 0x0f] =
      .instr (.push15 0x0102030405060708090a0b0c0d0e0f) [] ∧
    decode [0x6f, 0x01, 0x02, 0x03, 0x04, 0x05, 0x06, 0x07, 0x08, 0x09, 0x0a, 0x0b, 0x0c, 0x0d, 0x0e, 0x0f, 0x10] =
      .instr (.push16 0x0102030405060708090a0b0c0d0e0f10) [] := by decide +kernel

/-- The immediate bytes are 01 02 … in order, the first the most significant (R62, T14). -/
theorem test_decode_push17_to_24 :
    decode [0x70, 0x01, 0x02, 0x03, 0x04, 0x05, 0x06, 0x07, 0x08, 0x09, 0x0a, 0x0b, 0x0c, 0x0d, 0x0e, 0x0f, 0x10, 0x11] =
      .instr (.push17 0x0102030405060708090a0b0c0d0e0f1011) [] ∧
    decode [0x71, 0x01, 0x02, 0x03, 0x04, 0x05, 0x06, 0x07, 0x08, 0x09, 0x0a, 0x0b, 0x0c, 0x0d, 0x0e, 0x0f, 0x10, 0x11, 0x12] =
      .instr (.push18 0x0102030405060708090a0b0c0d0e0f101112) [] ∧
    decode [0x72, 0x01, 0x02, 0x03, 0x04, 0x05, 0x06, 0x07, 0x08, 0x09, 0x0a, 0x0b, 0x0c, 0x0d, 0x0e, 0x0f, 0x10, 0x11, 0x12, 0x13] =
      .instr (.push19 0x0102030405060708090a0b0c0d0e0f10111213) [] ∧
    decode [0x73, 0x01, 0x02, 0x03, 0x04, 0x05, 0x06, 0x07, 0x08, 0x09, 0x0a, 0x0b, 0x0c, 0x0d, 0x0e, 0x0f, 0x10, 0x11, 0x12, 0x13, 0x14] =
      .instr (.push20 0x0102030405060708090a0b0c0d0e0f1011121314) [] ∧
    decode [0x74, 0x01, 0x02, 0x03, 0x04, 0x05, 0x06, 0x07, 0x08, 0x09, 0x0a, 0x0b, 0x0c, 0x0d, 0x0e, 0x0f, 0x10, 0x11, 0x12, 0x13, 0x14, 0x15] =
      .instr (.push21 0x0102030405060708090a0b0c0d0e0f101112131415) [] ∧
    decode [0x75, 0x01, 0x02, 0x03, 0x04, 0x05, 0x06, 0x07, 0x08, 0x09, 0x0a, 0x0b, 0x0c, 0x0d, 0x0e, 0x0f, 0x10, 0x11, 0x12, 0x13, 0x14, 0x15, 0x16] =
      .instr (.push22 0x0102030405060708090a0b0c0d0e0f10111213141516) [] ∧
    decode [0x76, 0x01, 0x02, 0x03, 0x04, 0x05, 0x06, 0x07, 0x08, 0x09, 0x0a, 0x0b, 0x0c, 0x0d, 0x0e, 0x0f, 0x10, 0x11, 0x12, 0x13, 0x14, 0x15, 0x16, 0x17] =
      .instr (.push23 0x0102030405060708090a0b0c0d0e0f1011121314151617) [] ∧
    decode [0x77, 0x01, 0x02, 0x03, 0x04, 0x05, 0x06, 0x07, 0x08, 0x09, 0x0a, 0x0b, 0x0c, 0x0d, 0x0e, 0x0f, 0x10, 0x11, 0x12, 0x13, 0x14, 0x15, 0x16, 0x17, 0x18] =
      .instr (.push24 0x0102030405060708090a0b0c0d0e0f101112131415161718) [] := by decide +kernel

/-- The immediate bytes are 01 02 … in order, the first the most significant (R62, T14). -/
theorem test_decode_push25_to_32 :
    decode [0x78, 0x01, 0x02, 0x03, 0x04, 0x05, 0x06, 0x07, 0x08, 0x09, 0x0a, 0x0b, 0x0c, 0x0d, 0x0e, 0x0f, 0x10, 0x11, 0x12, 0x13, 0x14, 0x15, 0x16, 0x17, 0x18, 0x19] =
      .instr (.push25 0x0102030405060708090a0b0c0d0e0f10111213141516171819) [] ∧
    decode [0x79, 0x01, 0x02, 0x03, 0x04, 0x05, 0x06, 0x07, 0x08, 0x09, 0x0a, 0x0b, 0x0c, 0x0d, 0x0e, 0x0f, 0x10, 0x11, 0x12, 0x13, 0x14, 0x15, 0x16, 0x17, 0x18, 0x19, 0x1a] =
      .instr (.push26 0x0102030405060708090a0b0c0d0e0f101112131415161718191a) [] ∧
    decode [0x7a, 0x01, 0x02, 0x03, 0x04, 0x05, 0x06, 0x07, 0x08, 0x09, 0x0a, 0x0b, 0x0c, 0x0d, 0x0e, 0x0f, 0x10, 0x11, 0x12, 0x13, 0x14, 0x15, 0x16, 0x17, 0x18, 0x19, 0x1a, 0x1b] =
      .instr (.push27 0x0102030405060708090a0b0c0d0e0f101112131415161718191a1b) [] ∧
    decode [0x7b, 0x01, 0x02, 0x03, 0x04, 0x05, 0x06, 0x07, 0x08, 0x09, 0x0a, 0x0b, 0x0c, 0x0d, 0x0e, 0x0f, 0x10, 0x11, 0x12, 0x13, 0x14, 0x15, 0x16, 0x17, 0x18, 0x19, 0x1a, 0x1b, 0x1c] =
      .instr (.push28 0x0102030405060708090a0b0c0d0e0f101112131415161718191a1b1c) [] ∧
    decode [0x7c, 0x01, 0x02, 0x03, 0x04, 0x05, 0x06, 0x07, 0x08, 0x09, 0x0a, 0x0b, 0x0c, 0x0d, 0x0e, 0x0f, 0x10, 0x11, 0x12, 0x13, 0x14, 0x15, 0x16, 0x17, 0x18, 0x19, 0x1a, 0x1b, 0x1c, 0x1d] =
      .instr (.push29 0x0102030405060708090a0b0c0d0e0f101112131415161718191a1b1c1d) [] ∧
    decode [0x7d, 0x01, 0x02, 0x03, 0x04, 0x05, 0x06, 0x07, 0x08, 0x09, 0x0a, 0x0b, 0x0c, 0x0d, 0x0e, 0x0f, 0x10, 0x11, 0x12, 0x13, 0x14, 0x15, 0x16, 0x17, 0x18, 0x19, 0x1a, 0x1b, 0x1c, 0x1d, 0x1e] =
      .instr (.push30 0x0102030405060708090a0b0c0d0e0f101112131415161718191a1b1c1d1e) [] ∧
    decode [0x7e, 0x01, 0x02, 0x03, 0x04, 0x05, 0x06, 0x07, 0x08, 0x09, 0x0a, 0x0b, 0x0c, 0x0d, 0x0e, 0x0f, 0x10, 0x11, 0x12, 0x13, 0x14, 0x15, 0x16, 0x17, 0x18, 0x19, 0x1a, 0x1b, 0x1c, 0x1d, 0x1e, 0x1f] =
      .instr (.push31 0x0102030405060708090a0b0c0d0e0f101112131415161718191a1b1c1d1e1f) [] ∧
    decode [0x7f, 0x01, 0x02, 0x03, 0x04, 0x05, 0x06, 0x07, 0x08, 0x09, 0x0a, 0x0b, 0x0c, 0x0d, 0x0e, 0x0f, 0x10, 0x11, 0x12, 0x13, 0x14, 0x15, 0x16, 0x17, 0x18, 0x19, 0x1a, 0x1b, 0x1c, 0x1d, 0x1e, 0x1f, 0x20] =
      .instr (.push32 0x0102030405060708090a0b0c0d0e0f101112131415161718191a1b1c1d1e1f20) [] := by decide +kernel

/-- T17: leading zero bytes are part of the immediate. T18b: immediate bytes are data. -/
theorem test_decode_leaves_the_rest :
    decode [0x62, 0x00, 0x00, 0x01, 0x50] = .instr (.push3 1) [0x50] ∧
    decode [0x61, 0x60, 0x01, 0x01] = .instr (.push2 0x6001) [0x01] ∧
    decode [0x01, 0x60] = .instr .add [0x60] := by decide

/-- Rejections by name: nothing there, too few immediate bytes (T21, T24), the ends of the unknown ranges (T9). -/
theorem test_decode_rejects :
    decode [] = .noBytes ∧ decode [0x60] = .missingImmediate 0x60 ∧ decode [0x61, 0xaa] = .missingImmediate 0x61 ∧
    decode [0x0c] = .unknownOpcode 0x0c ∧ decode [0x0f] = .unknownOpcode 0x0f ∧ decode [0x16] = .unknownOpcode 0x16 ∧
    decode [0x4f] = .unknownOpcode 0x4f ∧ decode [0x51] = .unknownOpcode 0x51 ∧ decode [0x5e] = .unknownOpcode 0x5e ∧
    decode [0x80] = .unknownOpcode 0x80 ∧ decode [0xff] = .unknownOpcode 0xff := by decide

/-- The numbering of spec/opcode_table.json: byte k is bits 8k+7..8k, bits above `nbits` are 0. -/
theorem test_decodeTableWord :
    decodeTableWord 8 0x01 = some .add ∧ decodeTableWord 16 0x0560 = some (.push1 5) ∧
    decodeTableWord 8 0x61 = some (.push2 0) ∧ decodeTableWord 24 0x000161 = some (.push2 0x100) ∧
    decodeTableWord 8 0xfe = none ∧ decodeTableWord 8 0x7f = some (.push32 0) := by decide +kernel

/-- The placed instruction is the first one after reset: PUSH1 5, STOP, and ADD, which underflows (T80). -/
theorem test_withFetchWord :
    seen (step (State.reset.withFetchWord 16 0x0560)) = some ([5], 2, .none) ∧
    seen (step (State.reset.withFetchWord 8 0x00)) = some ([], 1, .stop) ∧
    seen (step (State.reset.withFetchWord 8 0x01)) = some ([], 1, .stackUnderflow) := by decide +kernel

/-- R60: the encoder writes Format O and Format P. -/
theorem test_encode :
    encode .smod = [0x07] ∧ encode (.push2 0x0102) = [0x61, 0x01, 0x02] ∧
    encode (.push3 1) = [0x62, 0x00, 0x00, 0x01] := by decide +kernel

/-- R68's own examples, and the bytes of P1 and T6. -/
theorem test_assemble :
    assemble [.push 0] = [0x60, 0x00] ∧ assemble [.push 255] = [0x60, 0xff] ∧
    assemble [.push 256] = [0x61, 0x01, 0x00] ∧
    assemble [.push (BitVec.ofNat 256 (2 ^ 256 - 1))] = 0x7f :: List.replicate 32 0xff ∧
    assemble [.push 6, .push 5, .push 4, .push 3, .instr .add, .instr .mul, .instr .sub, .instr .stop] =
      [0x60, 0x06, 0x60, 0x05, 0x60, 0x04, 0x60, 0x03, 0x01, 0x02, 0x03, 0x00] ∧
    assemble [.raw 0xfe] = [0xfe] := by decide +kernel

/-! ### One step of each instruction; operands top first -/

/-- T30, S2a, T30b. -/
theorem test_add :
    one [0x01] [0xffffffffffffffffffffffffffffffffffffffffffffffffffffffffffffffff, 1, 9] =
      some ([0, 9], 1, .none) ∧
    one [0x01] [0x1234, 5, 9] =
      some ([0x1239, 9], 1, .none) ∧
    one [0x01] [0x8000000000000000000000000000000000000000000000000000000000000000, 0x8000000000000000000000000000000000000000000000000000000000000000, 9] =
      some ([0, 9], 1, .none) := by decide +kernel

/-- T31, S2c, T31b. -/
theorem test_mul :
    one [0x02] [0x8000000000000000000000000000000000000000000000000000000000000000, 2, 9] =
      some ([0, 9], 1, .none) ∧
    one [0x02] [3, 0xffffffffffffffffffffffffffffffffffffffffffffffffffffffffffffffff, 9] =
      some ([0xfffffffffffffffffffffffffffffffffffffffffffffffffffffffffffffffd, 9], 1, .none) ∧
    one [0x02] [0xffffffffffffffffffffffffffffffffffffffffffffffffffffffffffffffff, 0xffffffffffffffffffffffffffffffffffffffffffffffffffffffffffffffff, 9] =
      some ([1, 9], 1, .none) := by decide +kernel

/-- T32, T33. -/
theorem test_sub :
    one [0x03] [3, 2, 9] =
      some ([1, 9], 1, .none) ∧
    one [0x03] [2, 3, 9] =
      some ([0xffffffffffffffffffffffffffffffffffffffffffffffffffffffffffffffff, 9], 1, .none) := by decide +kernel

/-- T34, T35, T35c. -/
theorem test_div :
    one [0x04] [255, 0, 9] =
      some ([0, 9], 1, .none) ∧
    one [0x04] [7, 2, 9] =
      some ([3, 9], 1, .none) ∧
    one [0x04] [0xffffffffffffffffffffffffffffffffffffffffffffffffffffffffffffffff, 2, 9] =
      some ([0x7fffffffffffffffffffffffffffffffffffffffffffffffffffffffffffffff, 9], 1, .none) := by decide +kernel

/-- T39, T39b, T40, T41. -/
theorem test_sdiv :
    one [0x05] [7, 0xfffffffffffffffffffffffffffffffffffffffffffffffffffffffffffffffe, 9] =
      some ([0xfffffffffffffffffffffffffffffffffffffffffffffffffffffffffffffffd, 9], 1, .none) ∧
    one [0x05] [0xfffffffffffffffffffffffffffffffffffffffffffffffffffffffffffffff9, 2, 9] =
      some ([0xfffffffffffffffffffffffffffffffffffffffffffffffffffffffffffffffd, 9], 1, .none) ∧
    one [0x05] [0x8000000000000000000000000000000000000000000000000000000000000000, 0xffffffffffffffffffffffffffffffffffffffffffffffffffffffffffffffff, 9] =
      some ([0x8000000000000000000000000000000000000000000000000000000000000000, 9], 1, .none) ∧
    one [0x05] [0xfffffffffffffffffffffffffffffffffffffffffffffffffffffffffffffff8, 0, 9] =
      some ([0, 9], 1, .none) := by decide +kernel

/-- T36, T37, T37b. -/
theorem test_mod :
    one [0x06] [10, 3, 9] =
      some ([1, 9], 1, .none) ∧
    one [0x06] [10, 0, 9] =
      some ([0, 9], 1, .none) ∧
    one [0x06] [0xffffffffffffffffffffffffffffffffffffffffffffffffffffffffffffffff, 3, 9] =
      some ([0, 9], 1, .none) := by decide +kernel

/-- T47, T48, T49, T50. -/
theorem test_smod :
    one [0x07] [0xfffffffffffffffffffffffffffffffffffffffffffffffffffffffffffffff8, 3, 9] =
      some ([0xfffffffffffffffffffffffffffffffffffffffffffffffffffffffffffffffe, 9], 1, .none) ∧
    one [0x07] [8, 0xfffffffffffffffffffffffffffffffffffffffffffffffffffffffffffffffd, 9] =
      some ([2, 9], 1, .none) ∧
    one [0x07] [0x8000000000000000000000000000000000000000000000000000000000000000, 0xffffffffffffffffffffffffffffffffffffffffffffffffffffffffffffffff, 9] =
      some ([0, 9], 1, .none) ∧
    one [0x07] [0xfffffffffffffffffffffffffffffffffffffffffffffffffffffffffffffff8, 0, 9] =
      some ([0, 9], 1, .none) := by decide +kernel

/-- T42, T43 (the sum wraps first), T44. -/
theorem test_addmod :
    one [0x08] [10, 10, 8, 9] =
      some ([4, 9], 1, .none) ∧
    one [0x08] [0xffffffffffffffffffffffffffffffffffffffffffffffffffffffffffffffff, 2, 3, 9] =
      some ([1, 9], 1, .none) ∧
    one [0x08] [10, 10, 0, 9] =
      some ([0, 9], 1, .none) := by decide +kernel

/-- T45 (the full product), T45c, T46. -/
theorem test_mulmod :
    one [0x09] [0xffffffffffffffffffffffffffffffffffffffffffffffffffffffffffffffff, 0xffffffffffffffffffffffffffffffffffffffffffffffffffffffffffffffff, 12, 9] =
      some ([9, 9], 1, .none) ∧
    one [0x09] [2, 0x8000000000000000000000000000000000000000000000000000000000000000, 0xffffffffffffffffffffffffffffffffffffffffffffffffffffffffffffffff, 9] =
      some ([1, 9], 1, .none) ∧
    one [0x09] [10, 10, 0, 9] =
      some ([0, 9], 1, .none) := by decide +kernel

/-- T54, T53, T56, T59b. -/
theorem test_exp :
    one [0x0a] [10, 2, 9] =
      some ([100, 9], 1, .none) ∧
    one [0x0a] [0, 0, 9] =
      some ([1, 9], 1, .none) ∧
    one [0x0a] [2, 255, 9] =
      some ([0x8000000000000000000000000000000000000000000000000000000000000000, 9], 1, .none) ∧
    one [0x0a] [2, 0xffffffffffffffffffffffffffffffffffffffffffffffffffffffffffffffff, 9] =
      some ([0, 9], 1, .none) := by decide +kernel

/-- T57, T58b, T51. -/
theorem test_exp_wraps :
    one [0x0a] [3, 200, 9] =
      some ([0xc21a937a76f3432ffd73d97e447606b683ecf6f6e4a7ae225bfaff1eaaf8b0a1, 9], 1, .none) ∧
    one [0x0a] [0xffffffffffffffffffffffffffffffffffffffffffffffffffffffffffffffff, 3, 9] =
      some ([0xffffffffffffffffffffffffffffffffffffffffffffffffffffffffffffffff, 9], 1, .none) ∧
    one [0x0a] [0, 5, 9] =
      some ([0, 9], 1, .none) := by decide +kernel

/-- T60, T62 (D16), T63. -/
theorem test_signextend :
    one [0x0b] [0, 0xff, 9] =
      some ([0xffffffffffffffffffffffffffffffffffffffffffffffffffffffffffffffff, 9], 1, .none) ∧
    one [0x0b] [0, 0x17f, 9] =
      some ([0x7f, 9], 1, .none) ∧
    one [0x0b] [1, 0x8000, 9] =
      some ([0xffffffffffffffffffffffffffffffffffffffffffffffffffffffffffff8000, 9], 1, .none) := by decide +kernel

/-- T64, T64b, T65, T66, T68. -/
theorem test_signextend_selector :
    one [0x0b] [30, 0x80000000000000000000000000000000000000000000000000000000000000, 9] =
      some ([0xff80000000000000000000000000000000000000000000000000000000000000, 9], 1, .none) ∧
    one [0x0b] [30, 0x8000000000000000000000000000000000000000000000000000000000000001, 9] =
      some ([1, 9], 1, .none) ∧
    one [0x0b] [31, 0x8000000000000000000000000000000000000000000000000000000000000000, 9] =
      some ([0x8000000000000000000000000000000000000000000000000000000000000000, 9], 1, .none) ∧
    one [0x0b] [0xffffffffffffffffffffffffffffffffffffffffffffffffffffffffffffffff, 0xff, 9] =
      some ([0xff, 9], 1, .none) ∧
    one [0x0b] [256, 0xff, 9] =
      some ([0xff, 9], 1, .none) := by decide +kernel

/-- T70, T71, T71b, T73b. -/
theorem test_lt :
    one [0x10] [1, 2, 9] =
      some ([1, 9], 1, .none) ∧
    one [0x10] [2, 1, 9] =
      some ([0, 9], 1, .none) ∧
    one [0x10] [2, 2, 9] =
      some ([0, 9], 1, .none) ∧
    one [0x10] [0xffffffffffffffffffffffffffffffffffffffffffffffffffffffffffffffff, 0, 9] =
      some ([0, 9], 1, .none) := by decide +kernel

/-- T72, T72b, T74b. -/
theorem test_gt :
    one [0x11] [2, 1, 9] =
      some ([1, 9], 1, .none) ∧
    one [0x11] [1, 2, 9] =
      some ([0, 9], 1, .none) ∧
    one [0x11] [0, 0xffffffffffffffffffffffffffffffffffffffffffffffffffffffffffffffff, 9] =
      some ([0, 9], 1, .none) := by decide +kernel

/-- T73, T75, T75c. -/
theorem test_slt :
    one [0x12] [0xffffffffffffffffffffffffffffffffffffffffffffffffffffffffffffffff, 0, 9] =
      some ([1, 9], 1, .none) ∧
    one [0x12] [0x8000000000000000000000000000000000000000000000000000000000000000, 0x7fffffffffffffffffffffffffffffffffffffffffffffffffffffffffffffff, 9] =
      some ([1, 9], 1, .none) ∧
    one [0x12] [0x8000000000000000000000000000000000000000000000000000000000000000, 0x8000000000000000000000000000000000000000000000000000000000000000, 9] =
      some ([0, 9], 1, .none) := by decide +kernel

/-- T74, T75b. -/
theorem test_sgt :
    one [0x13] [0, 0xffffffffffffffffffffffffffffffffffffffffffffffffffffffffffffffff, 9] =
      some ([1, 9], 1, .none) ∧
    one [0x13] [0x8000000000000000000000000000000000000000000000000000000000000000, 0x7fffffffffffffffffffffffffffffffffffffffffffffffffffffffffffffff, 9] =
      some ([0, 9], 1, .none) := by decide +kernel

/-- T76, T76b, T76d. -/
theorem test_eq :
    one [0x14] [5, 5, 9] =
      some ([1, 9], 1, .none) ∧
    one [0x14] [6, 5, 9] =
      some ([0, 9], 1, .none) ∧
    one [0x14] [0, 0x8000000000000000000000000000000000000000000000000000000000000000, 9] =
      some ([0, 9], 1, .none) := by decide +kernel

/-- S4a, S4b, S4c. -/
theorem test_iszero :
    one [0x15] [0, 9] =
      some ([1, 9], 1, .none) ∧
    one [0x15] [1, 9] =
      some ([0, 9], 1, .none) ∧
    one [0x15] [0x8000000000000000000000000000000000000000000000000000000000000000, 9] =
      some ([0, 9], 1, .none) := by decide +kernel

/-- T10, T84. -/
theorem test_pop : one [0x50] [5, 9] = some ([9], 1, .none) ∧ one [0x50] [] = some ([], 1, .stackUnderflow) := by
  decide +kernel

/-- T2, T4: `pc` is past the STOP, the stack is kept. -/
theorem test_stop : one [0x00, 0x60] [5] = some ([5], 1, .stop) := by decide +kernel

/-- T5, T12. -/
theorem test_push0 : one [0x5f] [] = some ([0], 1, .none) ∧ one [0x5f] [0] = some ([0, 0], 1, .none) := by
  decide +kernel

/-- Complete with `p + 1 + n = LEN` (R216, T13, T14, T20). -/
theorem test_push1_to_4 :
    one [0x60, 0x01] [9] =
      some ([0x01, 9], 2, .none) ∧
    one [0x61, 0x01, 0x02] [9] =
      some ([0x0102, 9], 3, .none) ∧
    one [0x62, 0x01, 0x02, 0x03] [9] =
      some ([0x010203, 9], 4, .none) ∧
    one [0x63, 0x01, 0x02, 0x03, 0x04] [9] =
      some ([0x01020304, 9], 5, .none) := by decide +kernel

/-- Complete with `p + 1 + n = LEN` (R216, T13, T14, T20). -/
theorem test_push5_to_8 :
    one [0x64, 0x01, 0x02, 0x03, 0x04, 0x05] [9] =
      some ([0x0102030405, 9], 6, .none) ∧
    one [0x65, 0x01, 0x02, 0x03, 0x04, 0x05, 0x06] [9] =
      some ([0x010203040506, 9], 7, .none) ∧
    one [0x66, 0x01, 0x02, 0x03, 0x04, 0x05, 0x06, 0x07] [9] =
      some ([0x01020304050607, 9], 8, .none) ∧
    one [0x67, 0x01, 0x02, 0x03, 0x04, 0x05, 0x06, 0x07, 0x08] [9] =
      some ([0x0102030405060708, 9], 9, .none) := by decide +kernel

/-- Complete with `p + 1 + n = LEN` (R216, T13, T14, T20). -/
theorem test_push9_to_12 :
    one [0x68, 0x01, 0x02, 0x03, 0x04, 0x05, 0x06, 0x07, 0x08, 0x09] [9] =
      some ([0x010203040506070809, 9], 10, .none) ∧
    one [0x69, 0x01, 0x02, 0x03, 0x04, 0x05, 0x06, 0x07, 0x08, 0x09, 0x0a] [9] =
      some ([0x0102030405060708090a, 9], 11, .none) ∧
    one [0x6a, 0x01, 0x02, 0x03, 0x04, 0x05, 0x06, 0x07, 0x08, 0x09, 0x0a, 0x0b] [9] =
      some ([0x0102030405060708090a0b, 9], 12, .none) ∧
    one [0x6b, 0x01, 0x02, 0x03, 0x04, 0x05, 0x06, 0x07, 0x08, 0x09, 0x0a, 0x0b, 0x0c] [9] =
      some ([0x0102030405060708090a0b0c, 9], 13, .none) := by decide +kernel

/-- Complete with `p + 1 + n = LEN` (R216, T13, T14, T20). -/
theorem test_push13_to_16 :
    one [0x6c, 0x01, 0x02, 0x03, 0x04, 0x05, 0x06, 0x07, 0x08, 0x09, 0x0a, 0x0b, 0x0c, 0x0d] [9] =
      some ([0x0102030405060708090a0b0c0d, 9], 14, .none) ∧
    one [0x6d, 0x01, 0x02, 0x03, 0x04, 0x05, 0x06, 0x07, 0x08, 0x09, 0x0a, 0x0b, 0x0c, 0x0d, 0x0e] [9] =
      some ([0x0102030405060708090a0b0c0d0e, 9], 15, .none) ∧
    one [0x6e, 0x01, 0x02, 0x03, 0x04, 0x05, 0x06, 0x07, 0x08, 0x09, 0x0a, 0x0b, 0x0c, 0x0d, 0x0e, 0x0f] [9] =
      some ([0x0102030405060708090a0b0c0d0e0f, 9], 16, .none) ∧
    one [0x6f, 0x01, 0x02, 0x03, 0x04, 0x05, 0x06, 0x07, 0x08, 0x09, 0x0a, 0x0b, 0x0c, 0x0d, 0x0e, 0x0f, 0x10] [9] =
      some ([0x0102030405060708090a0b0c0d0e0f10, 9], 17, .none) := by decide +kernel

/-- Complete with `p + 1 + n = LEN` (R216, T13, T14, T20). -/
theorem test_push17_to_20 :
    one [0x70, 0x01, 0x02, 0x03, 0x04, 0x05, 0x06, 0x07, 0x08, 0x09, 0x0a, 0x0b, 0x0c, 0x0d, 0x0e, 0x0f, 0x10, 0x11] [9] =
      some ([0x0102030405060708090a0b0c0d0e0f1011, 9], 18, .none) ∧
    one [0x71, 0x01, 0x02, 0x03, 0x04, 0x05, 0x06, 0x07, 0x08, 0x09, 0x0a, 0x0b, 0x0c, 0x0d, 0x0e, 0x0f, 0x10, 0x11, 0x12] [9] =
      some ([0x0102030405060708090a0b0c0d0e0f101112, 9], 19, .none) ∧
    one [0x72, 0x01, 0x02, 0x03, 0x04, 0x05, 0x06, 0x07, 0x08, 0x09, 0x0a, 0x0b, 0x0c, 0x0d, 0x0e, 0x0f, 0x10, 0x11, 0x12, 0x13] [9] =
      some ([0x0102030405060708090a0b0c0d0e0f10111213, 9], 20, .none) ∧
    one [0x73, 0x01, 0x02, 0x03, 0x04, 0x05, 0x06, 0x07, 0x08, 0x09, 0x0a, 0x0b, 0x0c, 0x0d, 0x0e, 0x0f, 0x10, 0x11, 0x12, 0x13, 0x14] [9] =
      some ([0x0102030405060708090a0b0c0d0e0f1011121314, 9], 21, .none) := by decide +kernel

/-- Complete with `p + 1 + n = LEN` (R216, T13, T14, T20). -/
theorem test_push21_to_24 :
    one [0x74, 0x01, 0x02, 0x03, 0x04, 0x05, 0x06, 0x07, 0x08, 0x09, 0x0a, 0x0b, 0x0c, 0x0d, 0x0e, 0x0f, 0x10, 0x11, 0x12, 0x13, 0x14, 0x15] [9] =
      some ([0x0102030405060708090a0b0c0d0e0f101112131415, 9], 22, .none) ∧
    one [0x75, 0x01, 0x02, 0x03, 0x04, 0x05, 0x06, 0x07, 0x08, 0x09, 0x0a, 0x0b, 0x0c, 0x0d, 0x0e, 0x0f, 0x10, 0x11, 0x12, 0x13, 0x14, 0x15, 0x16] [9] =
      some ([0x0102030405060708090a0b0c0d0e0f10111213141516, 9], 23, .none) ∧
    one [0x76, 0x01, 0x02, 0x03, 0x04, 0x05, 0x06, 0x07, 0x08, 0x09, 0x0a, 0x0b, 0x0c, 0x0d, 0x0e, 0x0f, 0x10, 0x11, 0x12, 0x13, 0x14, 0x15, 0x16, 0x17] [9] =
      some ([0x0102030405060708090a0b0c0d0e0f1011121314151617, 9], 24, .none) ∧
    one [0x77, 0x01, 0x02, 0x03, 0x04, 0x05, 0x06, 0x07, 0x08, 0x09, 0x0a, 0x0b, 0x0c, 0x0d, 0x0e, 0x0f, 0x10, 0x11, 0x12, 0x13, 0x14, 0x15, 0x16, 0x17, 0x18] [9] =
      some ([0x0102030405060708090a0b0c0d0e0f101112131415161718, 9], 25, .none) := by decide +kernel

/-- Complete with `p + 1 + n = LEN` (R216, T13, T14, T20). -/
theorem test_push25_to_28 :
    one [0x78, 0x01, 0x02, 0x03, 0x04, 0x05, 0x06, 0x07, 0x08, 0x09, 0x0a, 0x0b, 0x0c, 0x0d, 0x0e, 0x0f, 0x10, 0x11, 0x12, 0x13, 0x14, 0x15, 0x16, 0x17, 0x18, 0x19] [9] =
      some ([0x0102030405060708090a0b0c0d0e0f10111213141516171819, 9], 26, .none) ∧
    one [0x79, 0x01, 0x02, 0x03, 0x04, 0x05, 0x06, 0x07, 0x08, 0x09, 0x0a, 0x0b, 0x0c, 0x0d, 0x0e, 0x0f, 0x10, 0x11, 0x12, 0x13, 0x14, 0x15, 0x16, 0x17, 0x18, 0x19, 0x1a] [9] =
      some ([0x0102030405060708090a0b0c0d0e0f101112131415161718191a, 9], 27, .none) ∧
    one [0x7a, 0x01, 0x02, 0x03, 0x04, 0x05, 0x06, 0x07, 0x08, 0x09, 0x0a, 0x0b, 0x0c, 0x0d, 0x0e, 0x0f, 0x10, 0x11, 0x12, 0x13, 0x14, 0x15, 0x16, 0x17, 0x18, 0x19, 0x1a, 0x1b] [9] =
      some ([0x0102030405060708090a0b0c0d0e0f101112131415161718191a1b, 9], 28, .none) ∧
    one [0x7b, 0x01, 0x02, 0x03, 0x04, 0x05, 0x06, 0x07, 0x08, 0x09, 0x0a, 0x0b, 0x0c, 0x0d, 0x0e, 0x0f, 0x10, 0x11, 0x12, 0x13, 0x14, 0x15, 0x16, 0x17, 0x18, 0x19, 0x1a, 0x1b, 0x1c] [9] =
      some ([0x0102030405060708090a0b0c0d0e0f101112131415161718191a1b1c, 9], 29, .none) := by decide +kernel

/-- Complete with `p + 1 + n = LEN` (R216, T13, T14, T20). -/
theorem test_push29_to_32 :
    one [0x7c, 0x01, 0x02, 0x03, 0x04, 0x05, 0x06, 0x07, 0x08, 0x09, 0x0a, 0x0b, 0x0c, 0x0d, 0x0e, 0x0f, 0x10, 0x11, 0x12, 0x13, 0x14, 0x15, 0x16, 0x17, 0x18, 0x19, 0x1a, 0x1b, 0x1c, 0x1d] [9] =
      some ([0x0102030405060708090a0b0c0d0e0f101112131415161718191a1b1c1d, 9], 30, .none) ∧
    one [0x7d, 0x01, 0x02, 0x03, 0x04, 0x05, 0x06, 0x07, 0x08, 0x09, 0x0a, 0x0b, 0x0c, 0x0d, 0x0e, 0x0f, 0x10, 0x11, 0x12, 0x13, 0x14, 0x15, 0x16, 0x17, 0x18, 0x19, 0x1a, 0x1b, 0x1c, 0x1d, 0x1e] [9] =
      some ([0x0102030405060708090a0b0c0d0e0f101112131415161718191a1b1c1d1e, 9], 31, .none) ∧
    one [0x7e, 0x01, 0x02, 0x03, 0x04, 0x05, 0x06, 0x07, 0x08, 0x09, 0x0a, 0x0b, 0x0c, 0x0d, 0x0e, 0x0f, 0x10, 0x11, 0x12, 0x13, 0x14, 0x15, 0x16, 0x17, 0x18, 0x19, 0x1a, 0x1b, 0x1c, 0x1d, 0x1e, 0x1f] [9] =
      some ([0x0102030405060708090a0b0c0d0e0f101112131415161718191a1b1c1d1e1f, 9], 32, .none) ∧
    one [0x7f, 0x01, 0x02, 0x03, 0x04, 0x05, 0x06, 0x07, 0x08, 0x09, 0x0a, 0x0b, 0x0c, 0x0d, 0x0e, 0x0f, 0x10, 0x11, 0x12, 0x13, 0x14, 0x15, 0x16, 0x17, 0x18, 0x19, 0x1a, 0x1b, 0x1c, 0x1d, 0x1e, 0x1f, 0x20] [9] =
      some ([0x0102030405060708090a0b0c0d0e0f101112131415161718191a1b1c1d1e1f20, 9], 33, .none) := by decide +kernel

/-- T21, T24, P3 and S7: one byte short is truncated, the stack is kept. -/
theorem test_truncated_push :
    one [0x60] [7] = some ([7], 1, .truncatedPush) ∧ one [0x61, 0xaa] [0] = some ([0], 1, .truncatedPush) ∧
    one [0x63, 0xde, 0xad] [3] = some ([3], 1, .truncatedPush) ∧
    one (0x7f :: List.replicate 31 0x00) [] = some ([], 1, .truncatedPush) := by decide +kernel

/-- T25, P8, T28, T27: a push at the limit overflows, truncation is tested first. -/
theorem test_stack_overflow :
    seen (step (atCfg { Config.standard with stackDepth := some 2 } [0x5f] [0, 0])) =
      some ([0, 0], 1, .stackOverflow) ∧
    seen (step (atCfg { Config.standard with stackDepth := some 2 } [0x60, 0x03] [2, 1])) =
      some ([2, 1], 1, .stackOverflow) ∧
    seen (step (atCfg { Config.standard with stackDepth := some 0 } [0x5f] [])) = some ([], 1, .stackOverflow) ∧
    seen (step (atCfg { Config.standard with stackDepth := some 1 } [0x60] [0])) = some ([0], 1, .truncatedPush) := by
  decide +kernel

/-- T26: ADD at full depth pops before it pushes. -/
theorem test_add_at_full_depth :
    seen (step (atCfg { Config.standard with stackDepth := some 2 } [0x01] [0, 0])) = some ([0], 1, .none) := by
  decide +kernel

/-- T80, T81, T82, T82b, T83: nothing is popped. -/
theorem test_stack_underflow :
    one [0x01] [] = some ([], 1, .stackUnderflow) ∧ one [0x01] [1] = some ([1], 1, .stackUnderflow) ∧
    one [0x08] [0, 0] = some ([0, 0], 1, .stackUnderflow) ∧ one [0x09] [8, 9] = some ([8, 9], 1, .stackUnderflow) ∧
    one [0x15] [] = some ([], 1, .stackUnderflow) := by decide +kernel

/-- T86: every other instruction of arity 2 at depth 1. -/
theorem test_stack_underflow_arity_2 :
    ([0x02, 0x03, 0x04, 0x05, 0x06, 0x07, 0x0a, 0x0b, 0x10, 0x11, 0x12, 0x13, 0x14].all fun op =>
      decide (one [op] [1] = some ([1], 1, .stackUnderflow))) = true := by decide +kernel

/-- T6, T6f, T9: an unknown byte is a one-byte no-op, or a failure under its parameter. -/
theorem test_unknown_opcode :
    one [0xfe] [7] = some ([7], 1, .none) ∧ one [0x0c] [] = some ([], 1, .none) ∧
    seen (step (atCfg { Config.standard with unknownOpcodeFails := true } [0xfe] [7])) =
      some ([7], 1, .unknownOpcode) := by decide +kernel

/-- T1: the empty program. -/
theorem test_end_of_code : one [] [] = some ([], 0, .endOfCode) := by decide +kernel

/-- S6, T19b under either value of STOP_UNREVERSED, and S8. -/
theorem test_execute :
    execute Config.standard [0x60, 0x01, 0x60, 0x02, 0x01, 0x00] = some ([3], true) ∧
    execute Config.standard [0x60, 0x01, 0x60, 0x02, 0x00] = some ([2, 1], true) ∧
    execute { Config.standard with stopUnreversed := true } [0x60, 0x01, 0x60, 0x02, 0x00] = some ([1, 2], true) ∧
    execute Config.standard [0x60, 0xff, 0x60, 0x00, 0x04] = some ([0], true) := by decide +kernel

/-- R28: HALTED, success, cause 2 is 0b00001011; a failure with cause 4 is 0b00010001; reset is 0. -/
theorem test_status :
    ((at0 [] []).halt true .endOfCode).status = 0x0b ∧ ((at0 [] []).halt false .stackUnderflow).status = 0x11 ∧
    State.reset.status = 0x00 := by decide +kernel

/-- U6: with PC_WIDTH = 1 a program of one byte fits and a program of two is refused. -/
theorem test_program_too_long :
    (match step (atCfg { Config.standard with pcWidth := some 1 } [0x5f, 0x5f] []) with
      | .refused .programTooLong => true
      | _ => false) = true ∧
    seen (step (atCfg { Config.standard with pcWidth := some 1 } [0x5f] [])) = some ([0], 1, .none) := by
  decide +kernel

/-- The code memory: a byte written, its neighbour, and a zero that removes the cell. -/
theorem test_memory :
    Memory.read (Memory.writeRange [] 3 [1, 2]) 4 = 2 ∧ Memory.read (Memory.writeRange [] 3 [1, 2]) 5 = 0 ∧
    Memory.write [(3, 1), (4, 2)] 3 0 = [(4, 2)] ∧ Memory.wf [(4, 2), (3, 1)] = false ∧
    Memory.wf [(3, 0)] = false ∧ Memory.wf [(3, 1), (4, 2)] = true := by decide +kernel

/-! ### Witnesses: for every obligation with hypotheses, a state and operands that meet them, clause by clause, at the
ends of their ranges -/

/-- The HALTED state the witnesses use. -/
def halted : State :=
  (at0 [0x01] [7]).halt true .stop

/-- A full stack of two Words, the limit being two. -/
def limit2 (bytes : List Byte) : State :=
  atCfg { Config.standard with stackDepth := some 2 } bytes [2, 1]

/-- UNKNOWN_OPCODE_FAILS is set. -/
def strict (bytes : List Byte) : State :=
  atCfg { Config.standard with unknownOpcodeFails := true } bytes [7]

/-- A finite PC_WIDTH of two bits: programs of up to three bytes. -/
def narrow (bytes : List Byte) : State :=
  atCfg { Config.standard with pcWidth := some 2 } bytes [7]

theorem witness_ResetLeavesTheStatedValues :
    ([0x60, 0x05] : List Byte)[0]? = some 0x60 ∧ ([0x60, 0x05] : List Byte)[1]? = some 0x05 ∧
    byteAt (State.load Config.standard [0x60, 0x05]) 1 = 0x05 := by decide +kernel

theorem witness_HaltedEngineStepsToItself : halted.run = .halted := by decide

/-- `pc = LEN` exactly, with an empty program, a program that ran to its end, and the longest one PC_WIDTH allows. -/
theorem witness_EndOfCodeHaltsWithSuccess :
    (Ready (at0 [] []) ∧ (at0 [] []).len ≤ (at0 [] []).pc) ∧
    (Ready { at0 [0x5f] [0] with pc := 1 } ∧ { at0 [0x5f] [0] with pc := 1 }.len ≤ 1) ∧
    (Ready { narrow [0x5f, 0x5f, 0x5f] with pc := 3 } ∧ { narrow [0x5f, 0x5f, 0x5f] with pc := 3 }.len ≤ 3) :=
  ⟨⟨ready_of (by decide) (by decide), by decide⟩, ⟨ready_of (by decide) (by decide), by decide⟩,
    ⟨ready_of (by decide) (by decide), by decide⟩⟩

theorem witness_StepRunsTheDecodedInstruction :
    Ready (at0 [0x01] [1, 2]) ∧ decode (at0 [0x01] [1, 2]).fetchBytes = .instr .add [] :=
  ⟨ready_of (by decide) (by decide), by decide⟩

/-- The immediate ends exactly at LEN. -/
theorem witness_StepRunsTheEncodingAtPc :
    Ready (at0 [0x60, 0xaa] []) ∧ (Instr.push1 0xaa).wf = true ∧
    (at0 [0x60, 0xaa] []).pc + (encode (.push1 0xaa)).length = (at0 [0x60, 0xaa] []).len ∧
    ∀ k b, (encode (.push1 0xaa))[k]? = some b → byteAt (at0 [0x60, 0xaa] []) (0 + k) = b := by
  refine ⟨ready_of (by decide) (by decide), by decide +kernel, by decide +kernel, fun k b h => ?_⟩
  rcases k with _ | _ | k
  · cases h; decide +kernel
  · cases h; decide +kernel
  · simp [encode, Instr.immLen, beBytes] at h

theorem witness_DecodeOfEncodeIsTheInstruction :
    (Instr.push32 (BitVec.allOnes 256)).wf = true ∧ (Instr.push1 255).wf = true ∧ Instr.stop.wf = true := by
  decide +kernel

theorem witness_EncodeOfDecodeIsTheBytes :
    decode [0x61, 0x01, 0x02, 0x03] = .instr (.push2 0x0102) [0x03] := by decide

theorem witness_UnknownBytesAreRejectedByName :
    (IsUnknown 0x0c ∧ IsUnknown 0x0f ∧ IsUnknown 0x16 ∧ IsUnknown 0x4f ∧ IsUnknown 0x51 ∧ IsUnknown 0x5e ∧
      IsUnknown 0x80 ∧ IsUnknown 0xff) ∧
    (¬ IsUnknown 0x0b ∧ ¬ IsUnknown 0x10 ∧ ¬ IsUnknown 0x15 ∧ ¬ IsUnknown 0x50 ∧ ¬ IsUnknown 0x5f ∧
      ¬ IsUnknown 0x7f) ∧
    32 ≤ (List.replicate 32 (0xff : Byte)).length :=
  ⟨by decide, by decide, by decide⟩

theorem witness_InstructionLengthIsFixedByTheOpcode :
    decode [0x60, 0xaa, 0x00] = .instr (.push1 0xaa) [0x00] ∧ decode [0x5f, 0x00] = .instr .push0 [0x00] ∧
    (at0 [0x60, 0xaa] []).run = .running ∧
    step (at0 [0x60, 0xaa] []) = .next { at0 [0x60, 0xaa] [0xaa] with pc := 2 } := by
  refine ⟨by decide, by decide, rfl, ?_⟩
  rfl

/-- The operand forms: two operands, and one too few. The rules of the 13 other instructions of arity 2 have the same
hypotheses. -/
theorem witness_AddGivesTheLow256BitsOfTheSum :
    (at0 [0x01] [1, 2]).stack = 1 :: 2 :: [] ∧ (at0 [0x01] [1]).stack.length < 2 := by decide +kernel

theorem witness_MulGivesTheLow256BitsOfTheProduct :
    (at0 [0x02] [3, 5]).stack = 3 :: 5 :: [] ∧ (at0 [0x02] [1]).stack.length < 2 := by decide +kernel

theorem witness_SubTakesTheSecondFromTheTop :
    (at0 [0x03] [2, 3]).stack = 2 :: 3 :: [] ∧ (at0 [0x03] [1]).stack.length < 2 := by decide +kernel

theorem witness_DivIsTheUnsignedFloorOrZero :
    (at0 [0x04] [7, 0]).stack = 7 :: 0 :: [] ∧ (at0 [0x04] [7, 2]).stack = 7 :: 2 :: [] ∧
    (at0 [0x04] [1]).stack.length < 2 := by decide +kernel

theorem witness_SdivTruncatesTowardZero :
    (at0 [0x05] [7, 0]).stack = 7 :: 0 :: [] ∧ (at0 [0x05] [7, 2]).stack = 7 :: 2 :: [] ∧
    (at0 [0x05] [1]).stack.length < 2 := by decide +kernel

theorem witness_ModIsTheUnsignedRemainderOrZero :
    (at0 [0x06] [7, 0]).stack = 7 :: 0 :: [] ∧ (at0 [0x06] [7, 2]).stack = 7 :: 2 :: [] ∧
    (at0 [0x06] [1]).stack.length < 2 := by decide +kernel

theorem witness_SmodFollowsTheDividendsSign :
    (at0 [0x07] [7, 0]).stack = 7 :: 0 :: [] ∧ (at0 [0x07] [7, 2]).stack = 7 :: 2 :: [] ∧
    (at0 [0x07] [1]).stack.length < 2 := by decide +kernel

theorem witness_AddmodWrapsTheSumFirst :
    (at0 [0x08] [7, 2, 0]).stack = 7 :: 2 :: 0 :: [] ∧ (at0 [0x08] [7, 2, 3]).stack = 7 :: 2 :: 3 :: [] ∧
    (at0 [0x08] [1, 1]).stack.length < 3 := by decide +kernel

theorem witness_MulmodReducesTheFullProduct :
    (at0 [0x09] [7, 2, 0]).stack = 7 :: 2 :: 0 :: [] ∧ (at0 [0x09] [7, 2, 3]).stack = 7 :: 2 :: 3 :: [] ∧
    (at0 [0x09] [1, 1]).stack.length < 3 := by decide +kernel

theorem witness_ExpIsTheWrappedPower :
    (at0 [0x0a] [0, 0]).stack = 0 :: 0 :: [] ∧ (at0 [0x0a] [1]).stack.length < 2 := by decide +kernel

theorem witness_SignextendWidensTheLowBytes :
    (at0 [0x0b] [30, 1]).stack = 30 :: 1 :: [] ∧ (at0 [0x0b] [31, 1]).stack = 31 :: 1 :: [] ∧
    (at0 [0x0b] [1]).stack.length < 2 := by decide +kernel

theorem witness_LtComparesUnsigned :
    (at0 [0x10] [1, 2]).stack = 1 :: 2 :: [] ∧ (at0 [0x10] [1]).stack.length < 2 := by decide +kernel

theorem witness_GtComparesUnsigned :
    (at0 [0x11] [1, 2]).stack = 1 :: 2 :: [] ∧ (at0 [0x11] [1]).stack.length < 2 := by decide +kernel

theorem witness_SltComparesSigned :
    (at0 [0x12] [1, 2]).stack = 1 :: 2 :: [] ∧ (at0 [0x12] [1]).stack.length < 2 := by decide +kernel

theorem witness_SgtComparesSigned :
    (at0 [0x13] [1, 2]).stack = 1 :: 2 :: [] ∧ (at0 [0x13] [1]).stack.length < 2 := by decide +kernel

theorem witness_EqComparesAll256Bits :
    (at0 [0x14] [1, 1]).stack = 1 :: 1 :: [] ∧ (at0 [0x14] [1]).stack.length < 2 := by decide +kernel

theorem witness_IszeroTestsForZero :
    (at0 [0x15] [0]).stack = 0 :: [] ∧ (at0 [0x15] []).stack.length < 1 := by decide +kernel

theorem witness_PopDiscardsTheTop :
    (at0 [0x50] [5]).stack = 5 :: [] ∧ (at0 [0x50] []).stack.length < 1 := by decide +kernel

theorem witness_Push0PushesZero :
    (at0 [0x5f] []).cfg.stackDepth ≠ some (at0 [0x5f] []).stack.length ∧
    (limit2 [0x5f]).cfg.stackDepth = some (limit2 [0x5f]).stack.length := by decide

/-- The hypotheses of `PushRule` at one `n`: the greatest value, the bytes, one byte short, a full stack, room. -/
def PushWitness (op : Byte) (n : Nat) : Prop :=
  (BitVec.ofNat 256 (2 ^ (8 * n) - 1)).toNat < 2 ^ (8 * n) ∧ (List.replicate n (0xff : Byte)).length = n ∧
  (at0 (op :: List.replicate (n - 1) 0) []).len < 0 + 1 + n ∧
  (0 + 1 + n ≤ (limit2 (op :: List.replicate n 0)).len ∧
    (limit2 (op :: List.replicate n 0)).cfg.stackDepth = some (limit2 (op :: List.replicate n 0)).stack.length) ∧
  (0 + 1 + n = (at0 (op :: List.replicate n 0) []).len ∧ (at0 (op :: List.replicate n 0) []).cfg.stackDepth ≠ some 0)

theorem witness_Push1ToPush8 : PushWitness 0x60 1 ∧ PushWitness 0x67 8 := by
  unfold PushWitness
  decide +kernel

theorem witness_Push9ToPush16 : PushWitness 0x68 9 ∧ PushWitness 0x6f 16 := by
  unfold PushWitness
  decide +kernel

theorem witness_Push17ToPush24 : PushWitness 0x70 17 ∧ PushWitness 0x77 24 := by
  unfold PushWitness
  decide +kernel

theorem witness_Push25ToPush32 : PushWitness 0x78 25 ∧ PushWitness 0x7f 32 := by
  unfold PushWitness
  decide +kernel

/-- One byte short, a full stack, and complete with `p + 1 + n = LEN`. -/
theorem witness_PushStepReadsTheImmediateFromCode :
    (Ready (at0 [0x61, 0xaa] []) ∧ 0 < (at0 [0x61, 0xaa] []).len ∧ opAt (at0 [0x61, 0xaa] []) = 0x5f + 2 ∧
      0 + 1 + 2 > (at0 [0x61, 0xaa] []).len) ∧
    (Ready (limit2 [0x60, 0xaa]) ∧ 0 < (limit2 [0x60, 0xaa]).len ∧ opAt (limit2 [0x60, 0xaa]) = 0x5f + 1 ∧
      ¬ 0 + 1 + 1 > (limit2 [0x60, 0xaa]).len ∧
      (limit2 [0x60, 0xaa]).cfg.stackDepth = some (limit2 [0x60, 0xaa]).stack.length) ∧
    (Ready (at0 (0x7f :: List.replicate 32 0xff) []) ∧ opAt (at0 (0x7f :: List.replicate 32 0xff) []) = 0x5f + 32 ∧
      0 + 1 + 32 = (at0 (0x7f :: List.replicate 32 0xff) []).len) :=
  ⟨⟨ready_of (by decide) (by decide), by decide +kernel⟩, ⟨ready_of (by decide) (by decide), by decide +kernel⟩,
    ⟨ready_of (by decide) (by decide), by decide +kernel⟩⟩

theorem witness_UnknownOpcodeIsANoOpOrAFailure :
    (Ready (at0 [0x0c] []) ∧ 0 < (at0 [0x0c] []).len ∧ IsUnknown (byteAt (at0 [0x0c] []) 0) ∧
      (at0 [0x0c] []).cfg.unknownOpcodeFails = false) ∧
    (Ready (strict [0xff]) ∧ 0 < (strict [0xff]).len ∧ IsUnknown (byteAt (strict [0xff]) 0) ∧
      (strict [0xff]).cfg.unknownOpcodeFails = true) :=
  ⟨⟨ready_of (by decide) (by decide), by decide +kernel⟩, ⟨ready_of (by decide) (by decide), by decide +kernel⟩⟩

/-- A step that goes on and one that halts. -/
theorem witness_FrameOfEveryInstruction :
    exec .add (at0 [0x01] [1, 2]) = .next { at0 [0x01] [3] with pc := 1 } ∧
    exec .stop (at0 [0x00] [7]) =
      .next { at0 [0x00] [7] with pc := 1, run := .halted, success := true, cause := .stop } ∧
    step (at0 [0x01] [1, 2]) = .next { at0 [0x01] [3] with pc := 1 } :=
  ⟨rfl, rfl, rfl⟩

theorem witness_UnderflowIsTestedBeforeAnyPop :
    ((at0 [] [1]).stack.length < Instr.add.pops ∧ (at0 [] [1, 2]).stack.length < Instr.addmod.pops) ∧
    (0 < Instr.add.pops ∧ Instr.add.pops ≤ (at0 [] [1, 2]).stack.length) ∧
    (Instr.push0.pops = 0 ∧ (at0 [0x5f] []).cause ≠ .stackUnderflow ∧
      exec .push0 (at0 [0x5f] []) = .next { at0 [0x5f] [0] with pc := 1 }) :=
  ⟨by decide, by decide, by decide, by decide, rfl⟩

theorem witness_StackEffectFollowsTheTable :
    (at0 [0x01] [1, 2]).run = .running ∧ exec .add (at0 [0x01] [1, 2]) = .next { at0 [0x01] [3] with pc := 1 } ∧
    { at0 [0x01] [3] with pc := 1 }.run = .running :=
  ⟨rfl, rfl, rfl⟩

/-- The three cases of the table: the end of the code, a complete push, another byte. -/
theorem witness_ProgramCounterFollowsTheTable :
    ((at0 [] []).run = .running ∧ step (at0 [] []) = .next ((at0 [] []).halt true .endOfCode)) ∧
    ((at0 [0x60, 0xaa] []).run = .running ∧
      step (at0 [0x60, 0xaa] []) = .next { at0 [0x60, 0xaa] [0xaa] with pc := 2 }) ∧
    ((at0 [0x01] [1, 2]).run = .running ∧ step (at0 [0x01] [1, 2]) = .next { at0 [0x01] [3] with pc := 1 }) :=
  ⟨⟨rfl, rfl⟩, ⟨rfl, rfl⟩, ⟨rfl, rfl⟩⟩

theorem witness_TruncatedPushExactlyWhenBytesAreMissing :
    Ready (at0 [0x61, 0xaa] []) ∧ (at0 [0x61, 0xaa] []).cause = .none ∧ 0 < (at0 [0x61, 0xaa] []).len ∧
    0x60 ≤ opAt (at0 [0x61, 0xaa] []) ∧ opAt (at0 [0x61, 0xaa] []) ≤ 0x7f ∧
    (at0 [0x61, 0xaa] []).len < 0 + 1 + (opAt (at0 [0x61, 0xaa] []) - 0x5f) ∧
    step (at0 [0x61, 0xaa] []) = .next (failed .truncatedPush (at0 [0x61, 0xaa] [])) := by
  refine ⟨ready_of (by decide) (by decide), by decide, by decide, by decide +kernel, by decide +kernel,
    by decide +kernel, rfl⟩

theorem witness_StackUnderflowExactlyWhenArityExceedsDepth :
    Ready (at0 [0x08] [1, 2]) ∧ (at0 [0x08] [1, 2]).cause = .none ∧ 0 < (at0 [0x08] [1, 2]).len ∧
    (at0 [0x08] [1, 2]).stack.length < arityOf (opAt (at0 [0x08] [1, 2])) ∧
    step (at0 [0x08] [1, 2]) = .next (failed .stackUnderflow (at0 [0x08] [1, 2])) := by
  refine ⟨ready_of (by decide) (by decide), by decide, by decide, by decide +kernel, rfl⟩

/-- PUSH0 and a complete PUSH1 at the limit, and a step that raises no overflow. -/
theorem witness_StackOverflowExactlyOnAPushAtTheLimit :
    (Ready (limit2 [0x5f]) ∧ (limit2 [0x5f]).cause = .none ∧ 0 < (limit2 [0x5f]).len ∧
      (limit2 [0x5f]).cfg.stackDepth = some (limit2 [0x5f]).stack.length ∧ 0x5f ≤ opAt (limit2 [0x5f]) ∧
      opAt (limit2 [0x5f]) ≤ 0x7f ∧ 0 + 1 + (opAt (limit2 [0x5f]) - 0x5f) = (limit2 [0x5f]).len) ∧
    (Ready (limit2 [0x60, 0xaa]) ∧ 0x5f ≤ opAt (limit2 [0x60, 0xaa]) ∧ opAt (limit2 [0x60, 0xaa]) ≤ 0x7f ∧
      0 + 1 + (opAt (limit2 [0x60, 0xaa]) - 0x5f) = (limit2 [0x60, 0xaa]).len) ∧
    ((step (limit2 [0x01]) = .next { limit2 [0x01] with pc := 1, stack := [3] }) ∧
      { limit2 [0x01] with pc := 1, stack := [3] }.cause ≠ .stackOverflow) :=
  ⟨⟨ready_of (by decide) (by decide), by decide, by decide, by decide, by decide +kernel⟩,
    ⟨ready_of (by decide) (by decide), by decide +kernel⟩, ⟨rfl, by decide⟩⟩

theorem witness_UnknownOpcodeFailsExactlyWhenEnabled :
    Ready (strict [0x0c]) ∧ (strict [0x0c]).cause = .none ∧ 0 < (strict [0x0c]).len ∧
    IsUnknown (byteAt (strict [0x0c]) 0) ∧ (strict [0x0c]).cfg.unknownOpcodeFails = true ∧
    step (strict [0x0c]) = .next (failed .unknownOpcode (strict [0x0c])) :=
  ⟨ready_of (by decide) (by decide), by decide, by decide, by decide, by decide, rfl⟩

theorem witness_FailureEntryIsAHaltAndNothingElse :
    (at0 [0x01] [1]).run = .running ∧ step (at0 [0x01] [1]) = .next (failed .stackUnderflow (at0 [0x01] [1])) ∧
    (failed .stackUnderflow (at0 [0x01] [1])).run = .halted ∧
    (failed .stackUnderflow (at0 [0x01] [1])).success = false :=
  ⟨rfl, rfl, rfl, rfl⟩

/-- A success, and a failure under the document's parameters. -/
theorem witness_SuccessExactlyForStopAndEndOfCode :
    ((at0 [] []).run = .running ∧ step (at0 [] []) = .next ((at0 [] []).halt true .endOfCode) ∧
      ((at0 [] []).halt true .endOfCode).run = .halted) ∧
    (step (at0 [0x01] [1]) = .next (failed .stackUnderflow (at0 [0x01] [1])) ∧
      (failed .stackUnderflow (at0 [0x01] [1])).run = .halted ∧ (at0 [0x01] [1]).cfg.stackDepth = none ∧
      (at0 [0x01] [1]).cfg.unknownOpcodeFails = false) :=
  ⟨⟨rfl, rfl, rfl⟩, rfl, rfl, rfl, rfl⟩

theorem witness_ResetStatesMeetTheInvariant : (at0 [0x01, 0x02] [7]).CodeOk := by
  refine ⟨by decide +kernel, fun c hc => ?_⟩
  have h : (at0 [0x01, 0x02] [7]).code = [(0, 1), (1, 2)] := by decide +kernel
  have hl : (at0 [0x01, 0x02] [7]).len = 2 := rfl
  rw [h] at hc
  rcases List.mem_cons.1 hc with rfl | hc
  · rw [hl]; decide
  · rcases List.mem_cons.1 hc with rfl | hc
    · rw [hl]; decide
    · cases hc

/-- A full stack at the limit, `pc` at LEN: the invariant holds, and the step is the end-of-code halt. -/
theorem witness_EveryStepKeepsTheInvariant :
    { limit2 [0x01] with pc := 1 }.Inv ∧
    step { limit2 [0x01] with pc := 1 } = .next ({ limit2 [0x01] with pc := 1 }.halt true .endOfCode) := by
  refine ⟨⟨?_, ?_, ?_, ?_⟩, rfl⟩
  · refine ⟨fun _ => ⟨rfl, rfl⟩, ?_, ?_, ?_⟩ <;> intro h <;> exact absurd h (by decide)
  · intro d hd
    cases hd
    decide
  · refine ⟨by decide +kernel, fun c hc => ?_⟩
    have h : (limit2 [0x01]).code = [(0, 1)] := by decide +kernel
    change c ∈ (limit2 [0x01]).code at hc
    rw [h] at hc
    rcases List.mem_cons.1 hc with rfl | hc
    · decide
    · cases hc
  · decide

theorem witness_EveryRunHaltsWithinLenPlusOneSteps :
    Ready (narrow [0x5f, 0x5f, 0x5f]) ∧ (at0 [0x60, 0xaa] []).run = .running ∧
    step (at0 [0x60, 0xaa] []) = .next { at0 [0x60, 0xaa] [0xaa] with pc := 2 } ∧
    { at0 [0x60, 0xaa] [0xaa] with pc := 2 }.run = .running :=
  ⟨ready_of (by decide) (by decide), rfl, rfl, rfl⟩

theorem witness_UnboundedParametersGiveTheSameRun :
    Sys2Proof.core.run 1 (limit2 [0x01]) = .next { limit2 [0x01] with pc := 1, stack := [3] } ∧
    { limit2 [0x01] with pc := 1, stack := [3] }.cause ≠ .stackOverflow :=
  ⟨rfl, by decide⟩

/-- A memory that differs from the program's at LEN, the first address outside it. -/
theorem witness_BytesBeyondTheProgramAreUnobservable :
    (∀ a, a < (at0 [0x60] []).len → Memory.read [(0, 0x60), (1, 0xaa)] a = byteAt (at0 [0x60] []) a) ∧
    Memory.read [(0, 0x60), (1, 0xaa)] (at0 [0x60] []).len ≠ byteAt (at0 [0x60] []) (at0 [0x60] []).len ∧
    step (at0 [0x60] []) = .next (failed .truncatedPush (at0 [0x60] [])) := by
  refine ⟨fun a h => ?_, by decide +kernel, rfl⟩
  have ha : a = 0 := Nat.lt_one_iff.1 h
  subst ha
  decide +kernel

/-- RUNNING; HALTED with the top first; HALTED after a STOP under STOP_UNREVERSED; the last index of each. -/
theorem witness_ResultPortShowsTheStackAtHalt :
    (at0 [] []).run = .running ∧ (halted.run = .halted ∧ 0 < halted.stack.length) ∧
    (State.halt true .stop (atCfg { Config.standard with stopUnreversed := true } [0x00] [2, 1])).run = .halted ∧
    (State.halt true .stop (atCfg { Config.standard with stopUnreversed := true } [0x00] [2, 1])).words = [1, 2] := by
  decide +kernel

theorem witness_CommutativeInstructions :
    Instr.eq ∈ [Instr.add, Instr.mul, Instr.eq] ∧ Instr.mulmod ∈ [Instr.addmod, Instr.mulmod] ∧
    Instr.sgt ∈ [Instr.sub, Instr.div, Instr.sdiv, Instr.mod, Instr.smod, Instr.exp, Instr.signextend, Instr.lt,
      Instr.gt, Instr.slt, Instr.sgt] := by decide

theorem witness_ZeroDivisorsGiveZero :
    Instr.smod ∈ [Instr.div, Instr.sdiv, Instr.mod, Instr.smod] ∧ Instr.mulmod ∈ [Instr.addmod, Instr.mulmod] := by
  decide

/-- Each sign of dividend and divisor, and the one overflow case. -/
theorem witness_SignsOfQuotientAndRemainder :
    (at0 [0x05] [8, 3]).stack = 8 :: 3 :: [] ∧ (3 : Word) ≠ 0 ∧
    (0 ≤ (8 : Word).toInt ∧ 0 < (3 : Word).toInt) ∧ ((-8 : Word).toInt < 0 ∧ (-3 : Word).toInt < 0) ∧
    ((BitVec.ofNat 256 (2 ^ 255)).toInt = -2 ^ 255 ∧ (-1 : Word).toInt = -1) := by decide +kernel

theorem witness_SignedAndUnsignedReadingsAgree : (at0 [0x01] [1, 2]).stack = 1 :: 2 :: [] := by decide +kernel

/-- The greatest selector below 31, the sign bit 247 set and clear. -/
theorem witness_SignextendIsIdempotentAndSigned :
    (at0 [0x0b] [30, 1]).stack = 30 :: 1 :: [] ∧ (30 : Word).toNat ≤ 30 ∧
    (1 : Word).toNat % 2 ^ (8 * (30 + 1)) < 2 ^ (8 * (30 + 1) - 1) ∧
    ¬ (BitVec.ofNat 256 (2 ^ 247)).toNat % 2 ^ (8 * (30 + 1)) < 2 ^ (8 * (30 + 1) - 1) := by decide +kernel

/-- A program one byte too long is refused, one of exactly `2 ^ PC_WIDTH − 1` bytes is not. -/
theorem witness_StepRefusesOnlyAProgramTooLong :
    step (narrow [0x5f, 0x5f, 0x5f, 0x5f]) = .refused .programTooLong ∧ Ready (narrow [0x5f, 0x5f, 0x5f]) ∧
    halted.run = .halted :=
  ⟨rfl, ready_of (by decide) (by decide), rfl⟩

theorem witness_CanonicalMemoriesAreEqualWhenTheyReadAlike :
    Memory.wf [(0, 0x60), (1, 0xaa)] = true ∧
    (∀ a, Memory.read [(0, 0x60), (1, 0xaa)] a = Memory.read [(0, 0x60), (1, 0xaa)] a) ∧
    ([0x60, 0xaa] : List Byte)[1]? = some 0xaa :=
  ⟨by decide +kernel, fun _ => rfl, by decide⟩


end Sys2Proof.Tests
end

section
/-! PROOF. Facts the state family shares: what the decoder's answers say about the bytes at `pc`, what each case of a
step answers, every effect of a step in one place, and what each effect keeps. -/

namespace Sys2Proof

/-! ### The opcode map and the decoder -/

/-- A PUSHn opcode, 0x60 to 0x7f, is a row of the opcode map whatever its immediate (R63). -/
theorem instrOf_isSome_of_push {op : Byte} (v : Word) (h : 0x60 ≤ op.toNat ∧ op.toNat ≤ 0x7f) :
    (instrOf op v).isSome = true := by
  have rows : (List.range 32).all (fun k => (instrOf (BitVec.ofNat 8 (0x60 + k)) v).isSome) = true := rfl
  have hop : op = BitVec.ofNat 8 (0x60 + (op.toNat - 0x60)) := by
    rw [Nat.add_sub_cancel' h.1, BitVec.ofNat_toNat, BitVec.setWidth_eq]
  rw [hop]
  exact List.all_eq_true.1 rows _ (List.mem_range.2 (by omega))

/-- Only the PUSHn opcodes have an immediate (R60, R61). -/
theorem immCount_pos_iff (op : Byte) : 0 < immCount op ↔ 0x60 ≤ op.toNat ∧ op.toNat ≤ 0x7f := by
  rw [immCount]
  split <;> omega

/-- A PUSHn has `n = op − 0x5f` immediate bytes (R60). -/
theorem immCount_of_push {op : Byte} (h : 0x60 ≤ op.toNat ∧ op.toNat ≤ 0x7f) : immCount op = op.toNat - 0x5f :=
  if_pos h

theorem immCount_le (op : Byte) : immCount op ≤ 32 := by
  rw [immCount]
  split <;> omega

/-- A byte outside the opcode map has no immediate (R61, R64). -/
theorem immCount_of_instrOf_none {op : Byte} {v : Word} (h : instrOf op v = none) : immCount op = 0 := by
  by_contra hne
  have hs := instrOf_isSome_of_push v ((immCount_pos_iff op).1 (Nat.pos_of_ne_zero hne))
  simp [h] at hs

theorem decode_cons_ne_noBytes (op : Byte) (tail : List Byte) : decode (op :: tail) ≠ .noBytes := by
  rw [decode]
  split
  · nofun
  · split <;> nofun

/-- What a missing immediate was decoded from. -/
theorem decode_missingImmediate {op op' : Byte} {tail : List Byte}
    (h : decode (op :: tail) = .missingImmediate op') : tail.length < immCount op := by
  by_contra hl
  cases hi : instrOf op (beWord (tail.take (immCount op))) with
  | some i => rw [decode_some (Nat.le_of_not_lt hl) hi] at h; cases h
  | none => rw [decode_none (Nat.le_of_not_lt hl) hi] at h; cases h

/-- What an unknown opcode was decoded from. -/
theorem decode_unknownOpcode {op op' : Byte} {tail : List Byte}
    (h : decode (op :: tail) = .unknownOpcode op') : ∃ v, instrOf op v = none := by
  by_cases hl : tail.length < immCount op
  · rw [decode_short hl] at h; cases h
  · cases hi : instrOf op (beWord (tail.take (immCount op))) with
    | some i => rw [decode_some (Nat.le_of_not_lt hl) hi] at h; cases h
    | none => exact ⟨_, hi⟩

/-! ### The columns of the opcode table -/

theorem Instr.pushes_le_one (i : Instr) : i.pushes ≤ 1 := by
  cases i <;> simp [Instr.pushes]

/-- An instruction with an immediate pops nothing (R63). -/
theorem Instr.pops_of_immLen_pos {i : Instr} : 0 < i.immLen → i.pops = 0 := by
  cases i <;> simp [Instr.immLen, Instr.pops]

end Sys2Proof

namespace Sys2Proof.Machine

/-! ### The two limits -/

/-- There is room for a push exactly when the depth is no finite STACK_DEPTH (R36). -/
theorem State.full_eq_false_iff (s : State) : s.full = false ↔ s.cfg.stackDepth ≠ some s.depth := by
  rw [← Bool.not_eq_true, State.full_iff]

/-- A program is too long exactly for a finite PC_WIDTH that cannot address it (R25, D5). -/
theorem State.codeFits_eq_false_iff (s : State) :
    s.codeFits = false ↔ ∃ w, s.cfg.pcWidth = some w ∧ 2 ^ w - 1 < s.len := by
  rw [← Bool.not_eq_true, State.codeFits_iff]
  push Not
  rfl

/-! ### What each case answers -/

theorem pushConst_of_not_full {s : State} (v : Word) (h : s.full = false) :
    pushConst v s = .next (s.fetched.push v) := by
  simp [pushConst, h]

theorem pushImm_truncated {s : State} {n : Nat} (v : Word) (h : s.len < s.pc + 1 + n) :
    pushImm n v s = .next (s.fetched.halt false .truncatedPush) := by
  simp [pushImm, h]

theorem pushImm_of_not_full {s : State} {n : Nat} (v : Word) (hl : s.pc + 1 + n ≤ s.len) (h : s.full = false) :
    pushImm n v s = .next ((s.fetched.push v).advance n) := by
  simp [pushImm, h, Nat.not_lt.2 hl]

theorem unknownOpcode_of_fails {s : State} (h : s.cfg.unknownOpcodeFails = true) :
    unknownOpcode s = .next (s.fetched.halt false .unknownOpcode) := by
  simp [unknownOpcode, h]

theorem unknownOpcode_of_skips {s : State} (h : s.cfg.unknownOpcodeFails = false) :
    unknownOpcode s = .next s.fetched := by
  simp [unknownOpcode, h]

/-- A HALTED state steps to itself (R93). -/
theorem step_of_halted {s : State} (h : s.run = .halted) : step s = .next s := by
  simp [step, h]

/-- A RUNNING state whose program is too long is refused (U6). -/
theorem step_of_too_long {s : State} (hr : s.run = .running) (hf : s.codeFits = false) :
    step s = .refused .programTooLong := by
  simp [step, hr, hf]

theorem unknownOpcode_total (s : State) : ∃ t, unknownOpcode s = .next t := by
  cases hf : s.cfg.unknownOpcodeFails with
  | true => exact ⟨_, unknownOpcode_of_fails hf⟩
  | false => exact ⟨_, unknownOpcode_of_skips hf⟩

/-- Every RUNNING state whose program fits has a next state (R80). -/
theorem step_total_of_running {s : State} (hr : s.run = .running) (hf : s.codeFits = true) :
    ∃ t, step s = .next t := by
  rw [step_of_running hr hf]
  cases decode s.fetchBytes with
  | instr i _ => exact exec_total i s
  | noBytes | missingImmediate => exact ⟨_, rfl⟩
  | unknownOpcode => exact unknownOpcode_total s

/-- A run of one step more is a step and the rest of the run. -/
theorem run_succ_eq_next_iff (M : Host.Core) {n : Nat} {s t : M.State} :
    M.run (n + 1) s = .next t ↔ ∃ u, M.step s = .next u ∧ M.run n u = .next t := by
  rw [Host.Core.run]
  cases M.step s <;> simp

/-- A run from a HALTED state stays there (R93). -/
theorem run_of_halted (n : Nat) {s : State} (h : s.run = .halted) : core.run n s = .next s := by
  induction n with
  | zero => rfl
  | succ n ih => exact (run_succ_eq_next_iff core).2 ⟨s, step_of_halted h, ih⟩

/-! ### Every effect of a step -/

/-- What a step can do to a state, with the byte at `pc` named: nothing once HALTED, the end-of-code halt, the effect of
the instruction at `pc`, a truncated push, an unknown byte. -/
inductive StepEffect (s : State) : State → Prop where
  | halted (hr : s.run = .halted) : StepEffect s s
  | endOfCode (hr : s.run = .running) (hpc : s.len ≤ s.pc) : StepEffect s (s.halt true .endOfCode)
  | instr {t : State} (i : Instr) (hr : s.run = .running) (hpc : s.pc < s.len)
      (hop : Memory.read s.code s.pc = opcodeOf i) (h : ExecEffect i s t) : StepEffect s t
  | truncated (hr : s.run = .running) (hpc : s.pc < s.len)
      (h : s.len < s.pc + 1 + immCount (Memory.read s.code s.pc)) :
      StepEffect s (s.fetched.halt false .truncatedPush)
  | unknownFails (v : Word) (hr : s.run = .running) (hpc : s.pc < s.len)
      (h : instrOf (Memory.read s.code s.pc) v = none) (hf : s.cfg.unknownOpcodeFails = true) :
      StepEffect s (s.fetched.halt false .unknownOpcode)
  | unknownSkips (v : Word) (hr : s.run = .running) (hpc : s.pc < s.len)
      (h : instrOf (Memory.read s.code s.pc) v = none) (hf : s.cfg.unknownOpcodeFails = false) :
      StepEffect s s.fetched

/-- What `step` answers is one of its effects. -/
theorem step_effect {s t : State} (h : step s = .next t) : StepEffect s t := by
  rcases step_cases h with ⟨hr, rfl⟩ | ⟨hr, -, hs⟩
  · exact .halted hr
  by_cases hpc : s.len ≤ s.pc
  · have hd : decode s.fetchBytes = .noBytes := by rw [(State.fetchBytes_eq_nil_iff s).2 hpc, decode_nil]
    rcases hs with ⟨-, rfl⟩ | ⟨i, rest, hi, -⟩ | ⟨op, hm, -⟩ | ⟨op, hu, -⟩
    · exact .endOfCode hr hpc
    · cases hd.symm.trans hi
    · cases hd.symm.trans hm
    · cases hd.symm.trans hu
  · have hpc : s.pc < s.len := Nat.lt_of_not_le hpc
    rw [State.fetchBytes_cons hpc] at hs
    rcases hs with ⟨hn, -⟩ | ⟨i, rest, hi, he⟩ | ⟨op, hm, rfl⟩ | ⟨op, hu, he⟩
    · exact absurd hn (decode_cons_ne_noBytes _ _)
    · obtain ⟨op, tail, hcons, -, hmap, -⟩ := decode_instr hi
      cases hcons
      exact .instr i hr hpc (instrOf_some hmap).1 (exec_effect he)
    · have hshort := decode_missingImmediate hm
      have hmax := immCount_le (Memory.read s.code s.pc)
      rw [Memory.length_readRange, maxInstrLen] at hshort
      exact .truncated hr hpc (by omega)
    · obtain ⟨v, hv⟩ := decode_unknownOpcode hu
      rcases unknownOpcode_cases he with ⟨hf, rfl⟩ | ⟨hf, rfl⟩
      · exact .unknownFails v hr hpc hv hf
      · exact .unknownSkips v hr hpc hv hf

/-! ### What an instruction and a step leave unchanged -/

/-- No instruction writes CODE, LEN or a parameter (R30, R48). -/
theorem ExecEffect.frame {i : Instr} {s t : State} (h : ExecEffect i s t) :
    t.code = s.code ∧ t.len = s.len ∧ t.cfg = s.cfg := by
  cases h <;> exact ⟨rfl, rfl, rfl⟩

/-- No step writes CODE, LEN or a parameter (R30, R48). -/
theorem StepEffect.frame {s t : State} (h : StepEffect s t) :
    t.code = s.code ∧ t.len = s.len ∧ t.cfg = s.cfg := by
  cases h with
  | instr i _ _ _ he => exact he.frame
  | halted | endOfCode | truncated | unknownFails | unknownSkips => exact ⟨rfl, rfl, rfl⟩

/-- An instruction that completes leaves the status record; one that halts the run leaves the stack (R87, R187). -/
theorem ExecEffect.status_or_halted {i : Instr} {s t : State} (h : ExecEffect i s t) :
    (t.run = s.run ∧ t.success = s.success ∧ t.cause = s.cause) ∨
    (t.run = .halted ∧ t.stack = s.stack ∧ t.pc = s.pc + 1) := by
  cases h with
  | completes => exact .inl ⟨rfl, rfl, rfl⟩
  | underflow | truncated | overflow | stop => exact .inr ⟨rfl, rfl, rfl⟩

/-! ### The program counter -/

/-- The `pc` after an instruction: past the immediate of a completed PUSHn, else one further (R26). -/
theorem ExecEffect.pc_eq {i : Instr} {s t : State} (h : ExecEffect i s t) :
    t.pc = if 0 < i.immLen ∧ s.pc + 1 + i.immLen ≤ s.len ∧ s.cfg.stackDepth ≠ some s.depth
      then s.pc + 1 + i.immLen else s.pc + 1 := by
  cases h with
  | underflow h =>
    have himm : ¬ 0 < i.immLen := fun hi => by
      have := Instr.pops_of_immLen_pos hi
      omega
    rw [if_neg fun hc => himm hc.1]
    rfl
  | truncated _ h =>
    rw [if_neg (by omega)]
    rfl
  | overflow _ _ _ h =>
    rw [if_neg fun hc => hc.2.2 (s.full_iff.1 h)]
    rfl
  | stop h =>
    subst h
    rfl
  | completes _ _ hl hf new _ =>
    show s.pc + 1 + i.immLen = _
    split
    · rfl
    · next hc =>
      have : ¬ 0 < i.immLen := fun hi =>
        hc ⟨hi, hl hi, s.full_eq_false_iff.1 (hf (Instr.pops_of_immLen_pos hi))⟩
      omega

/-- The `pc` after a step of a RUNNING state, by the number of immediate bytes of the opcode at `pc` (R26). -/
theorem StepEffect.pc_eq {s t : State} (hr : s.run = .running) (h : StepEffect s t) :
    t.pc = if s.len ≤ s.pc then s.pc
      else if 0 < immCount (Memory.read s.code s.pc) ∧ s.pc + 1 + immCount (Memory.read s.code s.pc) ≤ s.len ∧
          s.cfg.stackDepth ≠ some s.depth
        then s.pc + 1 + immCount (Memory.read s.code s.pc) else s.pc + 1 := by
  cases h with
  | halted hh =>
    rw [hr] at hh
    cases hh
  | endOfCode _ hpc =>
    rw [if_pos hpc]
    rfl
  | instr i _ hpc hop he =>
    rw [if_neg (Nat.not_le.2 hpc), hop, immCount_opcodeOf]
    exact he.pc_eq
  | truncated _ hpc h =>
    rw [if_neg (Nat.not_le.2 hpc), if_neg (by omega)]
    rfl
  | unknownFails v _ hpc h | unknownSkips v _ hpc h =>
    have := immCount_of_instrOf_none h
    rw [if_neg (Nat.not_le.2 hpc), if_neg (by omega)]
    rfl

/-! ### The invariant -/

/-- A halt gives a status record that a run produces when its cause does (R28, R193). -/
theorem State.StatusOk.of_halt {s : State} {ok : Bool} {c : Cause} (hc : c ≠ .none) (hok : ok = !c.isFailure)
    (ho : c = .stackOverflow → s.cfg.stackDepth.isSome = true)
    (hu : c = .unknownOpcode → s.cfg.unknownOpcodeFails = true) : (s.halt ok c).StatusOk :=
  ⟨nofun, fun _ => ⟨hc, hok⟩, ho, hu⟩

theorem ExecEffect.statusOk {i : Instr} {s t : State} (h : ExecEffect i s t) (hs : s.StatusOk) : t.StatusOk := by
  cases h with
  | completes => exact hs
  | overflow _ _ _ h =>
    exact .of_halt nofun rfl (fun _ => Option.isSome_of_eq_some (s.full_iff.1 h)) nofun
  | underflow | truncated | stop => exact .of_halt nofun rfl nofun nofun

theorem StepEffect.statusOk {s t : State} (h : StepEffect s t) (hs : s.StatusOk) : t.StatusOk := by
  cases h with
  | halted | unknownSkips => exact hs
  | endOfCode | truncated => exact .of_halt nofun rfl nofun nofun
  | instr i _ _ _ he => exact he.statusOk hs
  | unknownFails _ _ _ _ hf => exact .of_halt nofun rfl nofun fun _ => hf

/-- A push adds a Word only below the limit, and an instruction that pops adds no more than it pops (R36). -/
theorem ExecEffect.depthOk {i : Instr} {s t : State} (h : ExecEffect i s t) (hs : s.DepthOk) : t.DepthOk := by
  cases h with
  | underflow | truncated | overflow | stop => exact hs
  | completes _ hd _ hf new hn =>
    intro d (hlim : s.cfg.stackDepth = some d)
    have hle : s.depth ≤ d := hs d hlim
    have hpush := i.pushes_le_one
    have hroom : i.pops = 0 → s.depth ≠ d := fun hp hd' =>
      s.full_eq_false_iff.1 (hf hp) (hd' ▸ hlim)
    have hdepth : ((s.fetched.withStack (new ++ s.stack.drop i.pops)).advance i.immLen).depth =
        i.pushes + (s.depth - i.pops) := by
      simp [State.depth, hn]
    omega

theorem StepEffect.depthOk {s t : State} (h : StepEffect s t) (hs : s.DepthOk) : t.DepthOk := by
  cases h with
  | instr i _ _ _ he => exact he.depthOk hs
  | halted | endOfCode | truncated | unknownFails | unknownSkips => exact hs

/-- A step leaves the code memory and LEN, so also their form. -/
theorem StepEffect.codeOk {s t : State} (h : StepEffect s t) (hs : s.CodeOk) : t.CodeOk := by
  obtain ⟨hcode, hlen, -⟩ := h.frame
  rwa [State.CodeOk, hcode, hlen]

/-- A step never moves `pc` past LEN (R27). -/
theorem StepEffect.pc_le_len {s t : State} (h : StepEffect s t) (hs : s.pc ≤ s.len) : t.pc ≤ t.len := by
  cases h with
  | halted | endOfCode => exact hs
  | truncated _ hpc | unknownFails _ _ hpc | unknownSkips _ _ hpc => exact hpc
  | instr i _ hpc _ he =>
    obtain ⟨-, hlen, -⟩ := he.frame
    rw [hlen, he.pc_eq]
    split <;> omega

end Sys2Proof.Machine
end

section
/-! PROOF. The invariant, the frame, the stack and `pc`: each statement from the effects of `exec` and of a step. -/

namespace Sys2Proof.Claims

open Sys2Proof.Machine

/-- Settles O48: each part of the invariant is kept by every effect of a step. That the code memory is canonical is
about the model's own representation (log entry 3). -/
theorem everyStepKeepsTheInvariant : Obligations.EveryStepKeepsTheInvariant := by
  intro s t hs hstep
  have he := step_effect hstep
  exact ⟨he.statusOk hs.status, he.depthOk hs.depth, he.codeOk hs.code, he.pc_le_len hs.pc⟩

/-- Settles O37, from the frame of every effect of `exec` and of a step. -/
theorem frameOfEveryInstruction : Obligations.FrameOfEveryInstruction := by
  refine ⟨fun i s t h => ?_, fun s t h => ?_⟩
  · have he := exec_effect h
    obtain ⟨hcode, hlen, hcfg⟩ := he.frame
    exact ⟨hcode, fun a => by rw [byteAt, byteAt, hcode], hlen, hcfg, he.status_or_halted⟩
  · obtain ⟨hcode, hlen, hcfg⟩ := (step_effect h).frame
    exact ⟨hcode, fun a => by rw [byteAt, byteAt, hcode], hlen, hcfg⟩

/-- Settles O39: of the effects of `exec`, only completion leaves the engine RUNNING. -/
theorem stackEffectFollowsTheTable : Obligations.StackEffectFollowsTheTable := by
  intro i s t _ h hrun
  cases exec_effect h with
  | underflow | truncated | overflow | stop => cases hrun
  | completes _ hd _ _ new hn => exact ⟨hd, new, hn, rfl⟩

/-- Settles O40: the `pc` after each effect, with R61's count of immediate bytes written out. -/
theorem programCounterFollowsTheTable : Obligations.ProgramCounterFollowsTheTable := by
  intro s t hr h
  have hpos : 0 < immCount (Memory.read s.code s.pc) ↔ 0x60 ≤ opAt s ∧ opAt s ≤ 0x7f := immCount_pos_iff _
  rw [(step_effect h).pc_eq hr]
  by_cases hp : 0x60 ≤ opAt s ∧ opAt s ≤ 0x7f
  · have hn : immCount (Memory.read s.code s.pc) = opAt s - 0x5f := immCount_of_push hp
    have hn0 : 0 < opAt s - 0x5f := by omega
    simp only [hn, hn0, hp, true_and, State.depth]
  · simp only [hpos, hp, false_and, if_false, ← and_assoc]

end Sys2Proof.Claims
end

section
/-! PROOF. The run with both OPEN parameters infinite: every operation of the step commutes with `unbounded` but the
overflow test, and an overflow ends the run. -/

namespace Sys2Proof.Machine

open Sys2Proof.Claims

theorem unary_unbounded {f : Word → Word} {s t : State} (h : unary f s = .next t) :
    unary f (unbounded s) = .next (unbounded t) := by
  rcases unary_cases h with ⟨a, rest, hs, rfl⟩ | ⟨hd, rfl⟩
  · exact unary_cons (s := unbounded s) f hs
  · exact unary_underflow (s := unbounded s) f hd

theorem binary_unbounded {f : Word → Word → Word} {s t : State} (h : binary f s = .next t) :
    binary f (unbounded s) = .next (unbounded t) := by
  rcases binary_cases h with ⟨a, b, rest, hs, rfl⟩ | ⟨hd, rfl⟩
  · exact binary_cons (s := unbounded s) f hs
  · exact binary_underflow (s := unbounded s) f hd

theorem ternary_unbounded {f : Word → Word → Word → Word} {s t : State} (h : ternary f s = .next t) :
    ternary f (unbounded s) = .next (unbounded t) := by
  rcases ternary_cases h with ⟨a, b, c, rest, hs, rfl⟩ | ⟨hd, rfl⟩
  · exact ternary_cons (s := unbounded s) f hs
  · exact ternary_underflow (s := unbounded s) f hd

theorem discard_unbounded {s t : State} (h : discard s = .next t) :
    discard (unbounded s) = .next (unbounded t) := by
  rcases discard_cases h with ⟨a, rest, hs, rfl⟩ | ⟨hd, rfl⟩
  · exact discard_cons (s := unbounded s) hs
  · exact discard_underflow (s := unbounded s) hd

/-- The run has halted with StackOverflow (R183). -/
def State.Overflowed (t : State) : Prop :=
  t.run = .halted ∧ t.cause = .stackOverflow

theorem State.full_unbounded (s : State) : (unbounded s).full = false :=
  State.full_of_unbounded rfl

theorem pushConst_unbounded {v : Word} {s t : State} (h : pushConst v s = .next t) (ht : ¬ t.Overflowed) :
    pushConst v (unbounded s) = .next (unbounded t) := by
  rcases pushConst_cases h with ⟨-, rfl⟩ | ⟨-, rfl⟩
  · exact absurd ⟨rfl, rfl⟩ ht
  · exact pushConst_of_not_full v s.full_unbounded

theorem pushImm_unbounded {n : Nat} {v : Word} {s t : State} (h : pushImm n v s = .next t) (ht : ¬ t.Overflowed) :
    pushImm n v (unbounded s) = .next (unbounded t) := by
  rcases pushImm_cases h with ⟨hl, rfl⟩ | ⟨-, -, rfl⟩ | ⟨hl, -, rfl⟩
  · exact pushImm_truncated (s := unbounded s) v hl
  · exact absurd ⟨rfl, rfl⟩ ht
  · exact pushImm_of_not_full (s := unbounded s) v hl s.full_unbounded

theorem unknownOpcode_unbounded {s t : State} (h : unknownOpcode s = .next t) :
    unknownOpcode (unbounded s) = .next (unbounded t) := by
  rcases unknownOpcode_cases h with ⟨hf, rfl⟩ | ⟨hf, rfl⟩
  · exact unknownOpcode_of_fails (s := unbounded s) hf
  · exact unknownOpcode_of_skips (s := unbounded s) hf

/-- An instruction that does not overflow does the same without limits (D3, R183). -/
theorem exec_unbounded {i : Instr} {s t : State} (h : exec i s = .next t) (ht : ¬ t.Overflowed) :
    exec i (unbounded s) = .next (unbounded t) := by
  cases i with
  | stop =>
    cases h
    rfl
  | pop => exact discard_unbounded h
  | push0 => exact pushConst_unbounded h ht
  | iszero => exact unary_unbounded h
  | addmod | mulmod => exact ternary_unbounded h
  | add | mul | sub | div | sdiv | mod | smod | exp | signextend | lt | gt | slt | sgt | eq =>
    exact binary_unbounded h
  | _ => exact pushImm_unbounded h ht

/-- A step that does not overflow is the step without limits (D3, D5). -/
theorem step_unbounded {s t : State} (h : step s = .next t) (ht : ¬ t.Overflowed) :
    step (unbounded s) = .next (unbounded t) := by
  rcases step_cases h with ⟨hr, rfl⟩ | ⟨hr, -, hs⟩
  · exact step_of_halted (s := unbounded t) hr
  · have hfetch : (unbounded s).fetchBytes = s.fetchBytes := rfl
    rw [step_of_running (s := unbounded s) hr rfl, hfetch]
    rcases hs with ⟨hd, rfl⟩ | ⟨i, rest, hd, he⟩ | ⟨op, hd, rfl⟩ | ⟨op, hd, he⟩ <;> rw [hd]
    · rfl
    · exact exec_unbounded he ht
    · rfl
    · exact unknownOpcode_unbounded he

end Sys2Proof.Machine

namespace Sys2Proof.Claims

open Sys2Proof.Machine

/-- Settles O50, by induction on the number of steps: a step that overflows would end the run with that cause, and every
other step commutes with making the parameters infinite. -/
theorem unboundedParametersGiveTheSameRun : Obligations.UnboundedParametersGiveTheSameRun := by
  intro n
  induction n with
  | zero =>
    intro s t h _
    cases h
    rfl
  | succ n ih =>
    intro s t h ht
    obtain ⟨u, hu, hrest⟩ := (run_succ_eq_next_iff core).1 h
    have hover : ¬ u.Overflowed := by
      rintro ⟨hhalt, hcause⟩
      rw [run_of_halted n hhalt] at hrest
      cases hrest
      exact ht hcause
    exact (run_succ_eq_next_iff core).2 ⟨unbounded u, step_unbounded hu hover, ih u t hrest ht⟩

end Sys2Proof.Claims
end

section
/-! PROOF. When a step answers a next state and when it is refused. -/

namespace Sys2Proof.Claims

open Sys2Proof.Machine

/-- Settles O59: a HALTED state and a RUNNING one whose program fits have a next state, and the rest is refused.
That the step refuses, and that a HALTED state steps at all, are the model's choices (log entries 7 and 6). -/
theorem stepRefusesOnlyAProgramTooLong : Obligations.StepRefusesOnlyAProgramTooLong := by
  refine ⟨fun s r => ⟨fun h => ?_, ?_⟩, ?_, fun s hr => ⟨s, step_of_halted hr⟩⟩
  · cases hr : s.run with
    | halted =>
      rw [step_of_halted hr] at h
      cases h
    | running =>
      cases hf : s.codeFits with
      | true =>
        obtain ⟨t, ht⟩ := step_total_of_running hr hf
        cases ht.symm.trans h
      | false =>
        cases (step_of_too_long hr hf).symm.trans h
        exact ⟨rfl, rfl, s.codeFits_eq_false_iff.1 hf⟩
  · rintro ⟨hr, rfl, hlong⟩
    exact step_of_too_long hr (s.codeFits_eq_false_iff.2 hlong)
  · rintro s ⟨hr, hfits⟩
    exact step_total_of_running hr (s.codeFits_iff.2 hfits)

end Sys2Proof.Claims
end

section
/-! PROOF. Reset, the loaded program, and the views of a state the host has: the result port and the STATUS byte. -/

namespace Sys2Proof.Machine

/-! ### Which addresses a memory lists after a write -/

/-- A write lists no address but its own. -/
theorem Memory.mem_write {m : Memory} {a : Nat} {b : Byte} {c : Host.Cell} (h : c ∈ Memory.write m a b) :
    c ∈ m ∨ c.1 = a := by
  induction m with
  | nil =>
    rw [Memory.write] at h
    split at h
    · exact .inl h
    · exact .inr (by rw [List.mem_singleton.1 h])
  | cons d m ih =>
    obtain ⟨k, d⟩ := d
    rw [Memory.write] at h
    split_ifs at h with hlt hb heq hb
    · exact .inl h
    · rcases List.mem_cons.1 h with rfl | hm
      · exact .inr rfl
      · exact .inl hm
    · exact .inl (List.mem_cons_of_mem _ h)
    · rcases List.mem_cons.1 h with rfl | hm
      · exact .inr heq.symm
      · exact .inl (List.mem_cons_of_mem _ hm)
    · rcases List.mem_cons.1 h with rfl | hm
      · exact .inl List.mem_cons_self
      · exact (ih hm).imp_left (List.mem_cons_of_mem _)

/-- Writing a range lists no address outside it. -/
theorem Memory.mem_writeRange {m : Memory} {a : Nat} {bs : List Byte} {c : Host.Cell}
    (h : c ∈ Memory.writeRange m a bs) : c ∈ m ∨ a ≤ c.1 ∧ c.1 < a + bs.length := by
  induction bs generalizing m a with
  | nil => exact .inl h
  | cons b bs ih =>
    rw [List.length_cons]
    rcases ih h with hw | hr
    · rcases Memory.mem_write hw with hm | rfl
      · exact .inl hm
      · exact .inr (by omega)
    · exact .inr (by omega)

/-! ### Reset and load -/

/-- A loaded program lists nothing at or past its length (R44). -/
theorem State.codeOk_load (cfg : Config) (bytes : List Byte) : (State.load cfg bytes).CodeOk := by
  refine ⟨Memory.wf_load cfg bytes, fun c hc => ?_⟩
  rcases Memory.mem_writeRange hc with hnil | ⟨-, hlt⟩
  · cases hnil
  · simpa using hlt

/-- A state with `pc`, stack and status as reset leaves them (R32) meets the invariant if its code memory does. -/
theorem State.Inv.of_reset_values {s : State} (hpc : s.pc = 0) (hst : s.stack = []) (hr : s.run = .running)
    (hsu : s.success = false) (hca : s.cause = .none) (hcode : s.CodeOk) : s.Inv where
  status := by simp [State.StatusOk, hr, hsu, hca]
  depth d _ := by simp [State.depth, hst]
  code := hcode
  pc := by simp [hpc]

/-! ### The result port and the STATUS byte -/

@[simp] theorem State.length_words (s : State) : s.words.length = s.stack.length := by
  rw [State.words]
  split <;> simp

/-- The reported Words index by index (R31). -/
theorem State.getElem?_words {s : State} {i : Nat} (h : i < s.stack.length) :
    s.words[i]? = if s.cfg.stopUnreversed = true ∧ s.cause = .stop then s.stack[s.stack.length - 1 - i]?
      else s.stack[i]? := by
  rw [State.words]
  split
  · exact List.getElem?_reverse h
  · rfl

theorem Run.bit_eq (r : Run) : r.bit = (decide (r = .halted)).toNat := by
  cases r <;> rfl

theorem Cause.code_lt (c : Cause) : c.code < 8 := by
  cases c <;> decide

/-- The STATUS byte as a number: its fields fit side by side (R28). -/
theorem State.toNat_status (s : State) :
    s.status.toNat = (decide (s.run = .halted)).toNat + 2 * s.success.toNat + 4 * s.cause.code := by
  have hr := (decide (s.run = .halted)).toNat_lt
  have hs := s.success.toNat_lt
  have hc := s.cause.code_lt
  rw [State.status, Run.bit_eq, BitVec.toNat_ofNat]
  omega

/-- A number whose parity is a truth value has it as bit 0. -/
theorem testBit_zero_toNat_add (b : Bool) (n : Nat) : (b.toNat + 2 * n).testBit 0 = b := by
  cases b <;> simp

end Sys2Proof.Machine

namespace Sys2Proof.Claims

open Sys2Proof.Machine

/-- Settles O1, from the fields of `load`, `applyReset` and `reset` and the read after a range is written. -/
theorem resetLeavesTheStatedValues : Obligations.ResetLeavesTheStatedValues := by
  refine ⟨fun cfg bytes => ⟨rfl, rfl, rfl, rfl, rfl, rfl, rfl, fun k b hk => ?_⟩, fun _ => rfl, rfl, rfl, rfl, rfl, rfl⟩
  have hread := Memory.read_writeRange (m := []) (a := 0) rfl hk
  rwa [Nat.zero_add] at hread

/-- Settles O47: reset's values meet the invariant, and a loaded code memory lies below LEN. State.reset's empty program
and parameters are the model's choice (log entries 4 and 10). -/
theorem resetStatesMeetTheInvariant : Obligations.ResetStatesMeetTheInvariant :=
  ⟨.of_reset_values rfl rfl rfl rfl rfl ⟨rfl, nofun⟩,
    fun cfg bytes => .of_reset_values rfl rfl rfl rfl rfl (State.codeOk_load cfg bytes),
    fun _ hcode => .of_reset_values rfl rfl rfl rfl rfl hcode⟩

/-- Settles O52, from the reported Words index by index. That there is no result while RUNNING is the model's reading of
R31 (log entry 14). -/
theorem resultPortShowsTheStackAtHalt : Obligations.ResultPortShowsTheStackAtHalt := by
  intro s
  refine ⟨fun hr => ?_, fun hr => ⟨s.words, ?_, s.length_words, fun i hi => ⟨?_, State.getElem?_words hi⟩⟩⟩
  · rw [State.result, hr]
  · rw [State.result, hr]
  · rw [State.resWord, hr]

/-- Settles O53: STATUS is `run + 2 * success + 4 * cause`, and each field is read off by division. -/
theorem statusByteLaysOutTheStatusRecord : Obligations.StatusByteLaysOutTheStatusRecord := by
  refine ⟨fun s => ?_, rfl, rfl, rfl, rfl, rfl, rfl, rfl⟩
  have hr := (decide (s.run = .halted)).toNat_lt
  have hs := s.success.toNat_lt
  have hc := s.cause.code_lt
  refine ⟨?_, ?_, ?_, ?_⟩
  · rw [BitVec.getLsbD, s.toNat_status, Nat.add_assoc,
      show 2 * s.success.toNat + 4 * s.cause.code = 2 * (s.success.toNat + 2 * s.cause.code) by omega,
      testBit_zero_toNat_add]
  · rw [BitVec.getLsbD, s.toNat_status, Nat.testBit_succ,
      show ((decide (s.run = .halted)).toNat + 2 * s.success.toNat + 4 * s.cause.code) / 2 =
        s.success.toNat + 2 * s.cause.code by omega, testBit_zero_toNat_add]
  · rw [s.toNat_status]
    omega
  · rw [s.toNat_status]
    omega

end Sys2Proof.Claims
end

section
/-! PROOF. The code memory: the canonical form is determined by what it reads as, and no step reads it at or past LEN. -/

namespace Sys2Proof.Machine

/-! ### Canonical memories -/

/-- What the canonical form asks of the first cell and of the rest. -/
theorem Memory.wfFrom_cons_iff {lo k : Nat} {b : Byte} {m : Memory} :
    Memory.wfFrom lo ((k, b) :: m) = true ↔ lo ≤ k ∧ b ≠ Memory.unlisted ∧ Memory.wfFrom (k + 1) m = true := by
  rw [Memory.wfFrom, Bool.and_eq_true, Bool.and_eq_true, decide_eq_true_eq, bne_iff_ne, and_assoc]

theorem Memory.read_cons_same (k : Nat) (b : Byte) (m : Memory) : Memory.read ((k, b) :: m) k = b :=
  if_pos rfl

theorem Memory.read_cons_other {k a : Nat} (b : Byte) (m : Memory) (h : a ≠ k) :
    Memory.read ((k, b) :: m) a = Memory.read m a :=
  if_neg h

/-- A canonical memory that has a byte at `k` lists no first address after `k`. -/
theorem Memory.head_le_of_read_ne_unlisted {lo k k' : Nat} {b' : Byte} {m' : Memory}
    (hwf : Memory.wfFrom lo ((k', b') :: m') = true) (hr : Memory.read ((k', b') :: m') k ≠ Memory.unlisted) :
    k' ≤ k := by
  obtain ⟨-, hb', hm'⟩ := Memory.wfFrom_cons_iff.1 hwf
  by_contra hlt
  exact hr (Memory.read_of_lt (Nat.lt_of_not_le hlt) (Memory.wfFrom_cons_iff.2 ⟨le_rfl, hb', hm'⟩))

/-- Two canonical memories with the same first address read alike past it if the whole ones do. -/
theorem Memory.read_tail_congr {k : Nat} {b b' : Byte} {m m' : Memory} (hm : Memory.wfFrom (k + 1) m = true)
    (hm' : Memory.wfFrom (k + 1) m' = true)
    (h : ∀ a, Memory.read ((k, b) :: m) a = Memory.read ((k, b') :: m') a) (a : Nat) :
    Memory.read m a = Memory.read m' a := by
  by_cases ha : a = k
  · rw [ha, Memory.read_of_lt k.lt_succ_self hm, Memory.read_of_lt k.lt_succ_self hm']
  · have hread := h a
    rwa [Memory.read_cons_other b m ha, Memory.read_cons_other b' m' ha] at hread

/-- Canonical memories that read alike are equal lists: their first cells agree, and so do the rests. -/
theorem Memory.eq_of_read_eq {lo lo' : Nat} {m m' : Memory} (hm : Memory.wfFrom lo m = true)
    (hm' : Memory.wfFrom lo' m' = true) (h : ∀ a, Memory.read m a = Memory.read m' a) : m = m' := by
  induction m generalizing lo lo' m' with
  | nil =>
    cases m' with
    | nil => rfl
    | cons c' m' =>
      obtain ⟨k', b'⟩ := c'
      obtain ⟨-, hb', -⟩ := Memory.wfFrom_cons_iff.1 hm'
      exact absurd ((Memory.read_cons_same k' b' m').symm.trans (h k').symm) hb'
  | cons c m ih =>
    obtain ⟨k, b⟩ := c
    obtain ⟨-, hb, hrest⟩ := Memory.wfFrom_cons_iff.1 hm
    have hk := h k
    rw [Memory.read_cons_same] at hk
    cases m' with
    | nil => exact absurd hk hb
    | cons c' m' =>
      obtain ⟨k', b'⟩ := c'
      obtain ⟨-, hb', hrest'⟩ := Memory.wfFrom_cons_iff.1 hm'
      have hk' := h k'
      rw [Memory.read_cons_same k' b' m'] at hk'
      obtain rfl : k = k' := le_antisymm
        (Memory.head_le_of_read_ne_unlisted hm (hk'.symm ▸ hb'))
        (Memory.head_le_of_read_ne_unlisted hm' (hk ▸ hb))
      rw [Memory.read_cons_same] at hk
      rw [hk, ih hrest hrest' (Memory.read_tail_congr hrest hrest' h)]

/-! ### A push on a full stack -/

/-- A push of a constant on a full stack overflows (R101, R183). -/
theorem pushConst_of_full {s : State} (v : Word) (h : s.full = true) :
    pushConst v s = .next (s.fetched.halt false .stackOverflow) := by
  simp [pushConst, h, raise]

/-- A push of a whole immediate on a full stack overflows (R102, R183). -/
theorem pushImm_of_full {s : State} {n : Nat} (v : Word) (hl : s.pc + 1 + n ≤ s.len) (h : s.full = true) :
    pushImm n v s = .next (s.fetched.halt false .stackOverflow) := by
  simp [pushImm, h, Nat.not_lt.2 hl, raise]

/-! ### The step with another code memory -/

/-- The state with another code memory in place of its own. -/
def State.withCode (m : Memory) (s : State) : State :=
  { s with code := m }

/-- Two code memories that agree below LEN are fetched from alike (R45). -/
theorem State.fetchBytes_withCode {s : State} {m : Memory}
    (h : ∀ a, a < s.len → Memory.read m a = Memory.read s.code a) : (s.withCode m).fetchBytes = s.fetchBytes :=
  Memory.readRange_congr fun k (hk : k < min (s.len - s.pc) maxInstrLen) => h (s.pc + k) (by omega)

variable {s t : State} (m : Memory)

theorem unary_withCode {f : Word → Word} (h : unary f s = .next t) :
    unary f (s.withCode m) = .next (t.withCode m) := by
  rcases unary_cases h with ⟨a, rest, hs, rfl⟩ | ⟨hd, rfl⟩
  · exact unary_cons (s := s.withCode m) f hs
  · exact unary_underflow (s := s.withCode m) f hd

theorem binary_withCode {f : Word → Word → Word} (h : binary f s = .next t) :
    binary f (s.withCode m) = .next (t.withCode m) := by
  rcases binary_cases h with ⟨a, b, rest, hs, rfl⟩ | ⟨hd, rfl⟩
  · exact binary_cons (s := s.withCode m) f hs
  · exact binary_underflow (s := s.withCode m) f hd

theorem ternary_withCode {f : Word → Word → Word → Word} (h : ternary f s = .next t) :
    ternary f (s.withCode m) = .next (t.withCode m) := by
  rcases ternary_cases h with ⟨a, b, c, rest, hs, rfl⟩ | ⟨hd, rfl⟩
  · exact ternary_cons (s := s.withCode m) f hs
  · exact ternary_underflow (s := s.withCode m) f hd

theorem discard_withCode (h : discard s = .next t) : discard (s.withCode m) = .next (t.withCode m) := by
  rcases discard_cases h with ⟨a, rest, hs, rfl⟩ | ⟨hd, rfl⟩
  · exact discard_cons (s := s.withCode m) hs
  · exact discard_underflow (s := s.withCode m) hd

theorem pushConst_withCode {v : Word} (h : pushConst v s = .next t) :
    pushConst v (s.withCode m) = .next (t.withCode m) := by
  rcases pushConst_cases h with ⟨hf, rfl⟩ | ⟨hf, rfl⟩
  · exact pushConst_of_full (s := s.withCode m) v hf
  · exact pushConst_of_not_full (s := s.withCode m) v hf

theorem pushImm_withCode {n : Nat} {v : Word} (h : pushImm n v s = .next t) :
    pushImm n v (s.withCode m) = .next (t.withCode m) := by
  rcases pushImm_cases h with ⟨hl, rfl⟩ | ⟨hl, hf, rfl⟩ | ⟨hl, hf, rfl⟩
  · exact pushImm_truncated (s := s.withCode m) v hl
  · exact pushImm_of_full (s := s.withCode m) v hl hf
  · exact pushImm_of_not_full (s := s.withCode m) v hl hf

theorem unknownOpcode_withCode (h : unknownOpcode s = .next t) :
    unknownOpcode (s.withCode m) = .next (t.withCode m) := by
  rcases unknownOpcode_cases h with ⟨hf, rfl⟩ | ⟨hf, rfl⟩
  · exact unknownOpcode_of_fails (s := s.withCode m) hf
  · exact unknownOpcode_of_skips (s := s.withCode m) hf

/-- A decoded instruction does not look at the code memory: its immediate is a field of its own (log 17). -/
theorem exec_withCode {i : Instr} (h : exec i s = .next t) : exec i (s.withCode m) = .next (t.withCode m) := by
  cases i with
  | stop =>
    cases h
    rfl
  | pop => exact discard_withCode m h
  | push0 => exact pushConst_withCode m h
  | iszero => exact unary_withCode m h
  | addmod | mulmod => exact ternary_withCode m h
  | add | mul | sub | div | sdiv | mod | smod | exp | signextend | lt | gt | slt | sgt | eq =>
    exact binary_withCode m h
  | _ => exact pushImm_withCode m h

/-- A step is the same with every code memory that agrees below LEN (R45). -/
theorem step_withCode (hm : ∀ a, a < s.len → Memory.read m a = Memory.read s.code a) (h : step s = .next t) :
    step (s.withCode m) = .next (t.withCode m) := by
  rcases step_cases h with ⟨hr, rfl⟩ | ⟨hr, hfits, hs⟩
  · exact step_of_halted (s := t.withCode m) hr
  · rw [step_of_running (s := s.withCode m) hr hfits, State.fetchBytes_withCode hm]
    rcases hs with ⟨hd, rfl⟩ | ⟨i, rest, hd, he⟩ | ⟨op, hd, rfl⟩ | ⟨op, hd, he⟩ <;> rw [hd]
    · rfl
    · exact exec_withCode m he
    · rfl
    · exact unknownOpcode_withCode m he

end Sys2Proof.Machine

namespace Sys2Proof.Claims

open Sys2Proof.Machine

/-- Settles O51: a fetch reads only below LEN, and nothing after it looks at the code memory. -/
theorem bytesBeyondTheProgramAreUnobservable : Obligations.BytesBeyondTheProgramAreUnobservable :=
  fun _ _ m hm h => step_withCode m hm h

/-- Settles O60, from canonical memories being determined by their reads and the laws of a written range. The canonical
form is the model's own representation (log entry 3). -/
theorem canonicalMemoriesAreEqualWhenTheyReadAlike : Obligations.CanonicalMemoriesAreEqualWhenTheyReadAlike :=
  ⟨fun _ _ hm hm' h => Memory.eq_of_read_eq hm hm' h,
    fun _ a bytes hm => ⟨Memory.wf_writeRange a bytes hm, fun _ _ hk => Memory.read_writeRange hm hk⟩⟩

end Sys2Proof.Claims
end

section
/-! PROOF. The encoding family's own facts: the bytes of an immediate and the number they stand for are inverse, the
rows of the opcode map are the bytes that are not unknown, an encoding in the code memory is what is fetched. -/

namespace Sys2Proof

open Claims (IsUnknown)

/-! ### A number and its bytes -/

/-- The low `n` bytes of a number stand for it modulo `256 ^ n` (R41). -/
theorem beNat_beBytes (n v : Nat) : beNat (beBytes n v) = v % 256 ^ n := by
  induction n with
  | zero => rw [pow_zero, Nat.mod_one, beBytes, beNat, beNatFrom]
  | succ n ih =>
    have hbyte : (BitVec.ofNat 8 (v / 256 ^ n)).toNat = v / 256 ^ n % 256 := BitVec.toNat_ofNat _ 8
    rw [beBytes, beNat_cons, beBytes_length, ih, hbyte, Nat.mod_pow_succ, Nat.mul_comm, Nat.add_comm]

/-- The low `n` bytes of a number do not see what stands to their left. -/
theorem beBytes_mul_add (n a v : Nat) : beBytes n (a * 256 ^ n + v) = beBytes n v := by
  induction n generalizing a with
  | zero => rfl
  | succ n ih =>
    have hsplit : a * 256 ^ (n + 1) + v = a * 256 * 256 ^ n + v := by ring
    have hhead : (a * 256 * 256 ^ n + v) / 256 ^ n = a * 256 + v / 256 ^ n := by
      rw [Nat.add_comm, Nat.add_mul_div_right _ _ (by positivity), Nat.add_comm]
    have hbyte : BitVec.ofNat 8 (a * 256 + v / 256 ^ n) = BitVec.ofNat 8 (v / 256 ^ n) :=
      BitVec.eq_of_toNat_eq (Nat.mul_add_mod_self_right a 256 _)
    rw [beBytes, beBytes, hsplit, ih, hhead, hbyte]

/-- The bytes of the number that a byte sequence stands for are that sequence. -/
theorem beBytes_beNat (bs : List Byte) : beBytes bs.length (beNat bs) = bs := by
  induction bs with
  | nil => rfl
  | cons b bs ih =>
    have hhead : (b.toNat * 256 ^ bs.length + beNat bs) / 256 ^ bs.length = b.toNat := by
      rw [Nat.add_comm, Nat.add_mul_div_right _ _ (by positivity), Nat.div_eq_of_lt (beNat_lt bs), Nat.zero_add]
    rw [List.length_cons, beNat_cons, beBytes, hhead, beBytes_mul_add, ih, BitVec.ofNat_toNat, BitVec.setWidth_eq]

/-- Up to 32 bytes fit a Word, so the immediate is their number itself (R62). -/
theorem toNat_beWord {bs : List Byte} (h : bs.length ≤ 32) : (beWord bs).toNat = beNat bs := by
  have hle : 256 ^ bs.length ≤ 256 ^ 32 := Nat.pow_le_pow_right (by decide) h
  exact Nat.mod_eq_of_lt ((beNat_lt bs).trans_le hle)

theorem Instr.wf_iff (i : Instr) : i.wf = true ↔ i.imm.toNat < 256 ^ i.immLen :=
  decide_eq_true_iff

/-- Reading the immediate bytes of a well-formed instruction gives back its immediate (R62). -/
theorem beWord_beBytes_imm {i : Instr} (h : i.wf = true) : beWord (beBytes i.immLen i.imm.toNat) = i.imm := by
  rw [beWord, beNat_beBytes, Nat.mod_eq_of_lt (i.wf_iff.1 h), BitVec.ofNat_toNat, BitVec.setWidth_eq]

/-! ### Lengths -/

theorem Instr.immLen_le (i : Instr) : i.immLen ≤ 32 :=
  immCount_opcodeOf i ▸ immCount_le (opcodeOf i)

theorem encode_length (i : Instr) : (encode i).length = i.immLen + 1 := by
  rw [encode, List.length_cons, beBytes_length]

/-- The length of an instruction as R61 writes it. -/
theorem ilen_eq (op : Byte) :
    ilen op = if 0x60 ≤ op.toNat ∧ op.toNat ≤ 0x7f then 1 + (op.toNat - 0x5f) else 1 := by
  rw [ilen, immCount]
  split <;> rfl

/-! ### Decoding and encoding -/

/-- Decoding takes from any well-formed encoding its own bytes and no more (R60, R62, R63). -/
theorem decode_encode_append {i : Instr} (rest : List Byte) (h : i.wf = true) :
    decode (encode i ++ rest) = .instr i rest := by
  have hlen : immCount (opcodeOf i) = (beBytes i.immLen i.imm.toNat).length := by simp
  have hle : immCount (opcodeOf i) ≤ (beBytes i.immLen i.imm.toNat ++ rest).length := by simp
  have hmap : instrOf (opcodeOf i)
      (beWord ((beBytes i.immLen i.imm.toNat ++ rest).take (immCount (opcodeOf i)))) = some i := by
    rw [hlen, List.take_left, beWord_beBytes_imm h, instrOf_opcodeOf]
  rw [encode, List.cons_append, decode_some hle hmap, hlen, List.drop_left]

/-- The immediate of an instruction of the map is the number of the `immLen` bytes after its opcode; Format O has no
such bytes and the immediate 0, which no bytes stand for as well (R60, R62). -/
theorem instrOf_take {op : Byte} {tail : List Byte} {i : Instr}
    (h : instrOf op (beWord (tail.take (immCount op))) = some i) :
    op = opcodeOf i ∧ i.imm = beWord (tail.take i.immLen) := by
  obtain ⟨rfl, himm⟩ := instrOf_some h
  rw [immCount_opcodeOf] at himm
  rcases himm with himm | ⟨hlen, himm⟩
  · exact ⟨rfl, himm⟩
  · rw [himm, hlen]
    exact ⟨rfl, rfl⟩

/-- What is decoded stands for the bytes it took: the immediate's bytes are the ones after the opcode, in order. -/
theorem wf_and_encode_append_of_decode {bs rest : List Byte} {i : Instr} (h : decode bs = .instr i rest) :
    i.wf = true ∧ encode i ++ rest = bs := by
  obtain ⟨op, tail, rfl, hle, hmap, rfl⟩ := decode_instr h
  obtain ⟨rfl, himm⟩ := instrOf_take hmap
  rw [immCount_opcodeOf] at hle ⊢
  have hlen : (tail.take i.immLen).length = i.immLen := List.length_take_of_le hle
  have hnat : i.imm.toNat = beNat (tail.take i.immLen) := by
    rw [himm, toNat_beWord (hlen.trans_le i.immLen_le)]
  have hbytes : beBytes i.immLen i.imm.toNat = tail.take i.immLen := by
    have := beBytes_beNat (tail.take i.immLen)
    rwa [hlen, ← hnat] at this
  constructor
  · rw [i.wf_iff, hnat]
    exact (beNat_lt _).trans_eq (by rw [hlen])
  · rw [encode, hbytes, List.cons_append, List.take_append_drop]

/-! ### The unknown bytes -/

/-- No instruction of the map has an unknown byte as its opcode (R64). -/
theorem not_isUnknown_opcodeOf (i : Instr) : ¬ IsUnknown (opcodeOf i) := by
  cases i <;> rw [opcodeOf] <;> decide

/-- Every byte outside the four unknown ranges is a row of the map, whatever the immediate (R63, R64). -/
theorem instrOf_isSome_of_not_isUnknown {op : Byte} (v : Word) (h : ¬ IsUnknown op) :
    (instrOf op v).isSome = true := by
  by_cases hp : 0x60 ≤ op.toNat ∧ op.toNat ≤ 0x7f
  · exact instrOf_isSome_of_push v hp
  · have rows : (List.range 0x0c ++ List.range' 0x10 6 ++ [0x50, 0x5f]).all
        (fun n => (instrOf (BitVec.ofNat 8 n) v).isSome) = true := rfl
    have hmem : op.toNat ∈ List.range 0x0c ++ List.range' 0x10 6 ++ [0x50, 0x5f] := by
      simp only [List.mem_append, List.mem_range, List.mem_range'_1, List.mem_cons, List.not_mem_nil]
      omega
    have hrow := List.all_eq_true.1 rows op.toNat hmem
    rwa [BitVec.ofNat_toNat, BitVec.setWidth_eq] at hrow

/-- The map leaves out exactly the unknown bytes (R63, R64). -/
theorem instrOf_eq_none_iff (op : Byte) (v : Word) : instrOf op v = none ↔ IsUnknown op := by
  constructor
  · intro hnone
    by_contra hop
    have hsome := instrOf_isSome_of_not_isUnknown v hop
    rw [hnone] at hsome
    cases hsome
  · intro hop
    cases hi : instrOf op v with
    | none => rfl
    | some i => exact absurd ((instrOf_some hi).1 ▸ hop) (not_isUnknown_opcodeOf i)

end Sys2Proof

namespace Sys2Proof.Machine

/-! ### An instruction in the code memory -/

/-- A range that begins with the bytes of `bs` is `bs` and the range after it. -/
theorem Memory.readRange_eq_append {m : Memory} {a n : Nat} {bs : List Byte}
    (h : ∀ k b, bs[k]? = some b → Memory.read m (a + k) = b) (hn : bs.length ≤ n) :
    Memory.readRange m a n = bs ++ Memory.readRange m (a + bs.length) (n - bs.length) := by
  induction bs generalizing a n with
  | nil => rfl
  | cons b bs ih =>
    cases n with
    | zero => simp at hn
    | succ n =>
      have hhead : Memory.read m a = b := h 0 b rfl
      have htail : ∀ k c, bs[k]? = some c → Memory.read m (a + 1 + k) = c := fun k c hk => by
        rw [Nat.add_assoc, Nat.add_comm 1 k]
        exact h (k + 1) c hk
      rw [Memory.readRange_succ, hhead, ih htail (Nat.le_of_succ_le_succ hn), List.length_cons, List.cons_append,
        Nat.add_assoc, Nat.add_comm 1, Nat.add_sub_add_right]

/-- An encoding that stands at `pc` and ends at or below LEN is fetched whole, as no instruction is longer than the
fetch (R80, R82). -/
theorem State.fetchBytes_of_encode {s : State} {i : Instr} (hl : s.pc + (encode i).length ≤ s.len)
    (h : ∀ k b, (encode i)[k]? = some b → Memory.read s.code (s.pc + k) = b) :
    ∃ rest, s.fetchBytes = encode i ++ rest := by
  have hmax : (encode i).length ≤ maxInstrLen := by
    rw [encode_length]
    exact Nat.succ_le_succ i.immLen_le
  exact ⟨_, Memory.readRange_eq_append h (le_min (by omega) hmax)⟩

/-! ### The program counter of a run that goes on -/

/-- An instruction that does not halt moves `pc` by its length (R61). -/
theorem ExecEffect.pc_of_running {i : Instr} {s t : State} (h : ExecEffect i s t) (ht : t.run = .running) :
    t.pc = s.pc + ilen (opcodeOf i) := by
  cases h with
  | underflow | truncated | overflow | stop => cases ht
  | completes =>
    rw [ilen, immCount_opcodeOf, ← Nat.add_assoc]
    rfl

/-- A step of a RUNNING state that does not halt moves `pc` by the length that the byte at `pc` fixes, also when no
instruction has that byte (R61, R65). -/
theorem StepEffect.pc_of_running {s t : State} (h : StepEffect s t) (hs : s.run = .running) (ht : t.run = .running) :
    t.pc = s.pc + ilen (Memory.read s.code s.pc) := by
  cases h with
  | halted hh =>
    rw [hs] at hh
    cases hh
  | endOfCode | truncated | unknownFails => cases ht
  | instr i _ _ hop he =>
    rw [hop]
    exact he.pc_of_running ht
  | unknownSkips v _ _ hnone _ =>
    rw [ilen, immCount_of_instrOf_none hnone]
    rfl

end Sys2Proof.Machine
end

section
/-! PROOF. The statements of the encoding family. -/

namespace Sys2Proof.Claims

open Sys2Proof.Machine

/-- Settles O7: the bytes of an immediate are read back as the immediate, and the map is inverse to the opcode. -/
theorem decodeOfEncodeIsTheInstruction : Obligations.DecodeOfEncodeIsTheInstruction :=
  fun _ rest h => decode_encode_append rest h

/-- Settles O5: the fetch holds the whole encoding and some rest, which O7 decodes to the instruction. -/
theorem stepRunsTheEncodingAtPc : Obligations.StepRunsTheEncodingAtPc := by
  rintro s i ⟨hr, hfits⟩ hwf hl hbytes
  obtain ⟨rest, hfetch⟩ := State.fetchBytes_of_encode hl hbytes
  rw [step_of_running hr (s.codeFits_iff.2 hfits), hfetch, decode_encode_append rest hwf]

/-- Settles O8: an immediate of at most 32 bytes is their number, and the bytes of that number are these bytes. -/
theorem encodeOfDecodeIsTheBytes : Obligations.EncodeOfDecodeIsTheBytes :=
  fun _ _ _ h => wf_and_encode_append_of_decode h

/-- Settles O9: the map leaves out exactly the unknown bytes, none of which takes an immediate, and no other byte takes
more than 32 bytes. -/
theorem unknownBytesAreRejectedByName : Obligations.UnknownBytesAreRejectedByName := by
  refine ⟨fun b tail hb => ?_, fun b tail hb hlen => ?_, by decide +kernel⟩
  · have hnone := (instrOf_eq_none_iff b (beWord (tail.take (immCount b)))).2 hb
    have himm : immCount b ≤ tail.length := by
      rw [immCount_of_instrOf_none hnone]
      exact Nat.zero_le _
    exact decode_none himm hnone
  · obtain ⟨i, hi⟩ := Option.isSome_iff_exists.1
      (instrOf_isSome_of_not_isUnknown (beWord (tail.take (immCount b))) hb)
    exact ⟨i, _, decode_some ((immCount_le b).trans hlen) hi⟩

/-- Settles O10: a decoded instruction takes `immCount` bytes after its opcode, and of the effects of a step only those
that move `pc` by the length leave the engine RUNNING. -/
theorem instructionLengthIsFixedByTheOpcode : Obligations.InstructionLengthIsFixedByTheOpcode := by
  refine ⟨fun op tail rest i h => ?_, fun s t hs h ht => ?_⟩
  · obtain ⟨_, _, hcons, hle, -, rfl⟩ := decode_instr h
    cases hcons
    refine ⟨tail.take (immCount op), (List.take_append_drop _ _).symm, ?_⟩
    rw [List.length_take_of_le hle, Nat.add_comm, ← ilen_eq, ilen]
  · rw [(step_effect h).pc_of_running hs ht, ilen_eq]
    rfl

/-- Settles O6, by running the decoder on the ten words. -/
theorem sampleWordsDecodeAsTheMapSays : Obligations.SampleWordsDecodeAsTheMapSays := by
  rw [Obligations.SampleWordsDecodeAsTheMapSays]
  decide

end Sys2Proof.Claims
end

section
/-! PROOF. The step and the dispatch: a ready state takes the step its bytes name, an instruction's arity decides its
underflow, and a run is at most `LEN - pc` steps that do not halt and one that does. -/

namespace Sys2Proof.Machine

open Sys2Proof.Claims

/-! ### A ready state -/

/-- The program of a ready state fits, as `step` tests it (R25). -/
theorem codeFits_of_ready {s : State} (h : Ready s) : s.codeFits = true :=
  s.codeFits_iff.2 h.2

/-- A ready state has a next state (R80). -/
theorem step_total_of_ready {s : State} (h : Ready s) : ∃ t, step s = .next t :=
  step_total_of_running h.1 (codeFits_of_ready h)

/-- At or past the end of the code the step is the end-of-code halt (R81). -/
theorem step_of_len_le_pc {s : State} (h : Ready s) (hpc : s.len ≤ s.pc) : step s = endOfCode s := by
  rw [step_of_running h.1 (codeFits_of_ready h), (State.fetchBytes_eq_nil_iff s).2 hpc, decode_nil]

/-- Below LEN an unknown byte at `pc` is what the step meets, whatever follows it (R66, R88). -/
theorem step_of_unknown {s : State} (h : Ready s) (hpc : s.pc < s.len) (hb : IsUnknown (byteAt s s.pc)) :
    step s = unknownOpcode s := by
  have hdecode : decode s.fetchBytes = .unknownOpcode (byteAt s s.pc) := by
    rw [State.fetchBytes_cons hpc]
    exact unknownBytesAreRejectedByName.1 _ _ hb
  rw [step_of_running h.1 (codeFits_of_ready h), hdecode]

/-- A step that does not halt leaves a ready state ready, as LEN and the parameters stay. -/
theorem ready_of_step {s t : State} (hs : Ready s) (h : step s = .next t) (ht : t.run = .running) : Ready t := by
  obtain ⟨-, hlen, hcfg⟩ := (step_effect h).frame
  refine ⟨ht, ?_⟩
  rw [hlen, hcfg]
  exact hs.2

/-! ### Arity and depth -/

/-- An instruction that pops has no immediate (R63). -/
theorem immLen_of_pops_pos {i : Instr} (h : 0 < i.pops) : i.immLen = 0 := by
  by_contra hne
  have := Instr.pops_of_immLen_pos (Nat.pos_of_ne_zero hne)
  omega

/-- With fewer Words than the arity, the one effect is the underflow, the stack as it was (R84). -/
theorem ExecEffect.eq_of_depth_lt {i : Instr} {s t : State} (h : ExecEffect i s t) (hd : s.depth < i.pops) :
    t = s.fetched.halt false .stackUnderflow := by
  cases h with
  | underflow => rfl
  | truncated himm => have := Instr.pops_of_immLen_pos himm; omega
  | overflow hp => omega
  | stop hi => subst hi; cases hd
  | completes _ hle => omega

/-- With as many Words as a positive arity, an instruction completes (R84). -/
theorem ExecEffect.completes_of_pops_le {i : Instr} {s t : State} (h : ExecEffect i s t) (hp : 0 < i.pops)
    (hd : i.pops ≤ s.depth) : t.pc = s.pc + 1 ∧ t.run = s.run ∧ t.success = s.success ∧ t.cause = s.cause := by
  have himm := immLen_of_pops_pos hp
  cases h with
  | underflow => omega
  | truncated => omega
  | overflow => omega
  | stop hi => subst hi; cases hp
  | completes => exact ⟨by simp [himm], rfl, rfl, rfl⟩

/-- An instruction of arity 0 is never the cause of an underflow (R84). -/
theorem ExecEffect.cause_ne_stackUnderflow {i : Instr} {s t : State} (h : ExecEffect i s t) (hp : i.pops = 0)
    (hs : s.cause ≠ .stackUnderflow) : t.cause ≠ .stackUnderflow := by
  cases h with
  | underflow => omega
  | truncated | overflow | stop => nofun
  | completes => exact hs

/-! ### The length of a run -/

/-- Only below LEN is there a step that does not halt (R81). -/
theorem StepEffect.pc_lt_len_of_running {s t : State} (h : StepEffect s t) (hs : s.run = .running)
    (ht : t.run = .running) : s.pc < s.len := by
  cases h with
  | halted hh => cases hs.symm.trans hh
  | endOfCode => cases ht
  | instr _ _ hpc | truncated _ hpc | unknownFails _ _ hpc | unknownSkips _ _ hpc => exact hpc

/-- A step that does not halt moves `pc` on by at least 1, and not past LEN (R27, R89). -/
theorem StepEffect.pc_grows {s t : State} (h : StepEffect s t) (hs : s.run = .running) (ht : t.run = .running) :
    s.pc + 1 ≤ t.pc ∧ t.pc ≤ t.len := by
  refine ⟨?_, h.pc_le_len (h.pc_lt_len_of_running hs ht).le⟩
  rw [h.pc_of_running hs ht, ilen]
  omega

/-- The first `n` steps leave the engine RUNNING. -/
def State.RunningFor (n : Nat) (s : State) : Prop :=
  ∀ m, m ≤ n → ∃ v, core.run m s = .next v ∧ State.run v = .running

theorem State.runningFor_zero {s : State} (hs : s.run = .running) : s.RunningFor 0 := by
  intro m hm
  obtain rfl := Nat.le_zero.1 hm
  exact ⟨s, rfl, hs⟩

theorem State.RunningFor.succ {n : Nat} {s t : State} (hs : s.run = .running) (h : step s = .next t)
    (ht : t.RunningFor n) : s.RunningFor (n + 1)
  | 0, _ => ⟨s, rfl, hs⟩
  | m + 1, hm => by
    obtain ⟨v, hv, hrun⟩ := ht m (Nat.le_of_succ_le_succ hm)
    exact ⟨v, (run_succ_eq_next_iff core).2 ⟨t, h, hv⟩, hrun⟩

/-- From a ready state, after at most `LEN - pc` steps that do not halt comes one that does, and if that one executes an
instruction it is counted in `LEN - pc` (R89). By induction on `LEN - pc`, which each step that does not halt lowers. -/
theorem exists_halting_step {s : State} (hs : Ready s) :
    ∃ n u t, n ≤ s.len - s.pc ∧ s.RunningFor n ∧ core.run n s = .next u ∧ step u = .next t ∧ t.run = .halted ∧
      (u.pc < u.len → n + 1 ≤ s.len - s.pc) := by
  induction hk : s.len - s.pc using Nat.strong_induction_on generalizing s with
  | _ k ih =>
    subst hk
    obtain ⟨t, hst⟩ := step_total_of_ready hs
    cases ht : t.run with
    | halted => exact ⟨0, s, t, Nat.zero_le _, State.runningFor_zero hs.1, rfl, hst, ht, Nat.sub_pos_of_lt⟩
    | running =>
      have he := step_effect hst
      obtain ⟨hgrow, -⟩ := he.pc_grows hs.1 ht
      obtain ⟨-, hlen, -⟩ := he.frame
      have hpc := he.pc_lt_len_of_running hs.1 ht
      have hless : t.len - t.pc < s.len - s.pc := by omega
      obtain ⟨n, u, v, hn, hrunning, hrun, hu, hv, hlast⟩ := ih _ hless (ready_of_step hs hst ht) rfl
      exact ⟨n + 1, u, v, by omega, .succ hs.1 hst hrunning, (run_succ_eq_next_iff core).2 ⟨t, hst, hrun⟩, hu, hv,
        fun hl => (Nat.succ_le_succ (hlast hl)).trans hless⟩

end Sys2Proof.Machine
end

section
/-! PROOF. The statements of the step and dispatch family. -/

namespace Sys2Proof.Claims

open Sys2Proof.Machine

/-- Settles O49: `LEN - pc` falls with every step that does not halt, so a run has no more of them than that. -/
theorem everyRunHaltsWithinLenPlusOneSteps : Obligations.EveryRunHaltsWithinLenPlusOneSteps :=
  ⟨fun _ hs => exists_halting_step hs, fun _ _ hs h ht => (step_effect h).pc_grows hs ht⟩

/-- Settles O36: the step meets the unknown byte, which the parameter makes a failure or a no-op. -/
theorem unknownOpcodeIsANoOpOrAFailure : Obligations.UnknownOpcodeIsANoOpOrAFailure := by
  intro s hs hpc hb
  rw [step_of_unknown hs hpc hb]
  split
  · next hf => exact unknownOpcode_of_fails hf
  · next hf => exact unknownOpcode_of_skips (Bool.eq_false_of_not_eq_true hf)

/-- Settles O38: which effect an instruction has is decided by its arity and the depth. -/
theorem underflowIsTestedBeforeAnyPop : Obligations.UnderflowIsTestedBeforeAnyPop := by
  intro i s
  refine ⟨fun hd => ?_, fun hp hd => ?_, fun hp hs t h => (exec_effect h).cause_ne_stackUnderflow hp hs⟩
  · obtain ⟨t, h⟩ := exec_total i s
    rw [h, (exec_effect h).eq_of_depth_lt hd]
    rfl
  · obtain ⟨t, h⟩ := exec_total i s
    exact ⟨t, h, (exec_effect h).completes_of_pops_le hp hd⟩

/-- Settles O3: nothing is fetched at or past LEN, and a loaded empty program has `pc = LEN = 0`. -/
theorem endOfCodeHaltsWithSuccess : Obligations.EndOfCodeHaltsWithSuccess :=
  ⟨fun _ hs hpc => step_of_len_le_pc hs hpc,
    fun _ => step_of_len_le_pc ⟨rfl, fun _ _ => Nat.zero_le _⟩ (Nat.zero_le _)⟩

/-- Settles O4: of the step's cases, decoding to an instruction selects `exec`. -/
theorem stepRunsTheDecodedInstruction : Obligations.StepRunsTheDecodedInstruction := by
  intro s i rest hs hdecode
  rw [step_of_running hs.1 (codeFits_of_ready hs), hdecode]

/-- Settles O11: STOP's encoding is the byte 0x00, and its meaning is the halt after the fetch. -/
theorem stopHaltsWithSuccess : Obligations.StopHaltsWithSuccess :=
  ⟨⟨rfl, fun tail => decode_encode_append tail (i := .stop) rfl⟩, fun _ => rfl⟩

end Sys2Proof.Claims
end

section
/-! PROOF. The stack family's own facts: an instruction with an immediate is the push of it, its bytes and their number as
the spec writes them out, and the step at a PUSHn opcode. -/

namespace Sys2Proof

/-! ### The bytes of an immediate, written out -/

/-- The number of a byte sequence as the sum of R12. -/
theorem beNat_eq_sum (bs : List Byte) :
    beNat bs = ∑ k ∈ Finset.range bs.length, (bs.getD k 0).toNat * 256 ^ (bs.length - 1 - k) := by
  induction bs with
  | nil => rfl
  | cons b bs ih =>
    rw [beNat_cons, ih, List.length_cons, Finset.sum_range_succ', Nat.add_comm]
    simp only [List.getD_cons_succ, List.getD_cons_zero, Nat.add_sub_cancel, Nat.sub_zero, Nat.sub_sub, Nat.add_comm 1]

/-- The low `n` bytes of a number, the `k`-th worth `256 ^ (n - 1 - k)` (R60 Format P). -/
theorem beBytes_eq_map (n v : Nat) :
    beBytes n v = (List.range n).map fun k => BitVec.ofNat 8 (v / 256 ^ (n - 1 - k)) := by
  induction n with
  | zero => rfl
  | succ n ih =>
    rw [beBytes, ih, List.range_succ_eq_map, List.map_cons, List.map_map]
    simp only [Function.comp_def, Nat.succ_eq_add_one, Nat.add_sub_cancel, Nat.sub_zero, Nat.sub_sub, Nat.add_comm 1]

/-- The numbers of `n` bytes, by their bits (R62). -/
theorem two_pow_eight_mul (n : Nat) : 2 ^ (8 * n) = 256 ^ n :=
  pow_mul 2 8 n

/-! ### The instructions with an immediate -/

/-- The opcode of an instruction with `n` immediate bytes is `0x5f + n` (R60). -/
theorem opcodeOf_of_immLen_pos {i : Instr} (h : 0 < i.immLen) : opcodeOf i = BitVec.ofNat 8 (0x5f + i.immLen) := by
  have hpush := (immCount_pos_iff (opcodeOf i)).1 (by rwa [immCount_opcodeOf])
  have hn : (opcodeOf i).toNat = 0x5f + i.immLen := by
    rw [← immCount_opcodeOf, immCount_of_push hpush]
    omega
  rw [← hn, BitVec.ofNat_toNat, BitVec.setWidth_eq]

/-- A PUSHn opcode with at least `n` bytes after it decodes to an instruction whose immediate is those `n` bytes (R62). -/
theorem exists_decode_of_push {op : Byte} {tail : List Byte} (h : 0x60 ≤ op.toNat ∧ op.toNat ≤ 0x7f)
    (hl : immCount op ≤ tail.length) :
    ∃ i rest, decode (op :: tail) = .instr i rest ∧ i.immLen = immCount op ∧
      i.imm = beWord (tail.take (immCount op)) := by
  obtain ⟨i, hi⟩ := Option.isSome_iff_exists.1 (instrOf_isSome_of_push (beWord (tail.take (immCount op))) h)
  obtain ⟨rfl, himm⟩ := instrOf_take hi
  exact ⟨i, _, decode_some hl hi, (immCount_opcodeOf i).symm, by rwa [immCount_opcodeOf]⟩

end Sys2Proof

namespace Sys2Proof.Machine

open Sys2Proof.Claims

/-- Every instruction with an immediate is the push of it (R102). -/
theorem exec_of_immLen_pos {i : Instr} (s : State) (h : 0 < i.immLen) : exec i s = pushImm i.immLen i.imm s := by
  cases i with
  | stop | add | mul | sub | div | sdiv | mod | smod | addmod | mulmod | exp | signextend | lt | gt | slt | sgt | eq
  | iszero | pop | push0 => cases h
  | _ => rfl

/-- The first `n` bytes of a range that is at least as long are the range of `n` bytes. -/
theorem Memory.take_readRange (m : Memory) (a : Nat) {n k : Nat} (h : n ≤ k) :
    (Memory.readRange m a k).take n = Memory.readRange m a n := by
  induction n generalizing a k with
  | zero => rfl
  | succ n ih =>
    cases k with
    | zero => cases h
    | succ k =>
      rw [Memory.readRange_succ, Memory.readRange_succ, List.take_succ_cons, ih _ (Nat.le_of_succ_le_succ h)]

/-- `MemRead` is the number of the bytes of the range (R12). -/
theorem beNat_readRange (s : State) (a n : Nat) : beNat (Memory.readRange s.code a n) = memRead s a n := by
  rw [beNat_eq_sum, Memory.length_readRange, memRead]
  refine Finset.sum_congr rfl fun k hk => ?_
  rw [List.getD_eq_getElem?_getD, Memory.getElem?_readRange _ _ _ _ (Finset.mem_range.1 hk)]
  rfl

theorem memRead_lt (s : State) (a n : Nat) : memRead s a n < 2 ^ (8 * n) := by
  have h := beNat_lt (Memory.readRange s.code a n)
  rwa [beNat_readRange, Memory.length_readRange, ← two_pow_eight_mul] at h

/-- The step at a PUSHn opcode is the push of the `n` bytes after it (R102). Where they are missing the decoder says so and
the push would: both are the same failure. -/
theorem step_of_push {s : State} {n : Nat} (hs : Ready s) (hpc : s.pc < s.len) (hn : 1 ≤ n) (hn32 : n ≤ 32)
    (hop : opAt s = 0x5f + n) : step s = pushImm n (BitVec.ofNat 256 (memRead s (s.pc + 1) n)) s := by
  have hbyte : (Memory.read s.code s.pc).toNat = 0x5f + n := hop
  have hpush : 0x60 ≤ (Memory.read s.code s.pc).toNat ∧ (Memory.read s.code s.pc).toNat ≤ 0x7f := by omega
  have himm : immCount (Memory.read s.code s.pc) = n := by rw [immCount_of_push hpush, hbyte, Nat.add_sub_cancel_left]
  rw [step_of_running hs.1 (codeFits_of_ready hs), State.fetchBytes_cons hpc]
  by_cases hl : s.len < s.pc + 1 + n
  · rw [decode_short (by rw [himm, Memory.length_readRange, maxInstrLen]; omega), pushImm_truncated _ hl]
    rfl
  · have hle : n ≤ min (s.len - s.pc) maxInstrLen - 1 := by rw [maxInstrLen]; omega
    obtain ⟨i, rest, hdecode, hlen, hval⟩ := exists_decode_of_push hpush
      (tail := Memory.readRange s.code (s.pc + 1) (min (s.len - s.pc) maxInstrLen - 1))
      (by rwa [himm, Memory.length_readRange])
    rw [himm] at hlen
    rw [himm, Memory.take_readRange _ _ hle, beWord, beNat_readRange] at hval
    rw [hdecode, ← hval, ← hlen]
    exact exec_of_immLen_pos s (by omega)

end Sys2Proof.Machine
end

section
/-! PROOF. The statements of the stack family. -/

namespace Sys2Proof.Claims

open Sys2Proof.Machine

/-- A family of instructions whose immediate is any Word of `n` bytes follows the rule of PUSHn (R102): the bytes are
those of the encoding, which O7 decodes, and the meaning is the push. -/
theorem pushRule_of_immLen {i : Word → Instr} {n : Nat} (hn : 0 < n) (hlen : ∀ v, (i v).immLen = n)
    (himm : ∀ v, (i v).imm = v) : PushRule i n := by
  have hop : ∀ v, opcodeOf (i v) = BitVec.ofNat 8 (0x5f + n) := fun v => by
    rw [opcodeOf_of_immLen_pos (by rwa [hlen]), hlen]
  have hexec : ∀ v s, exec (i v) s = pushImm n v s := fun v s => by
    rw [exec_of_immLen_pos s (by rwa [hlen]), hlen, himm]
  refine ⟨fun v _ => ?_, fun imm rest himmlen => ?_, fun s v => ⟨fun hl => ?_, fun hl hfull => ?_, fun hl hroom => ?_⟩⟩
  · rw [encode, hop, hlen, himm, beBytes_eq_map]
  · subst himmlen
    have hle : imm.length ≤ 32 := (hlen 0).symm.trans_le (i 0).immLen_le
    have hnat := toNat_beWord hle
    have hlt := hnat.trans_lt (beNat_lt imm)
    have hwf : (i (beWord imm)).wf = true := by rwa [Instr.wf_iff, hlen, himm]
    have hencode : encode (i (beWord imm)) = BitVec.ofNat 8 (0x5f + imm.length) :: imm := by
      rw [encode, hop, hlen, himm, hnat, beBytes_beNat]
    refine ⟨beWord imm, hnat.trans (beNat_eq_sum imm), by rwa [two_pow_eight_mul], ?_⟩
    rw [← List.cons_append, ← hencode]
    exact decode_encode_append rest hwf
  · exact (hexec v s).trans (pushImm_truncated v hl)
  · exact (hexec v s).trans (pushImm_of_full v hl (s.full_iff.2 hfull))
  · exact (hexec v s).trans (pushImm_of_not_full v hl (s.full_eq_false_iff.2 hroom))

/-- Settles O31: PUSH1 to PUSH8 hold an immediate of 1 to 8 bytes. -/
theorem push1ToPush8 : Obligations.Push1ToPush8 := by
  refine ⟨?_, ?_, ?_, ?_, ?_, ?_, ?_, ?_⟩ <;>
    exact pushRule_of_immLen (by decide) (fun _ => rfl) (fun _ => rfl)

/-- Settles O32: PUSH9 to PUSH16 hold an immediate of 9 to 16 bytes. -/
theorem push9ToPush16 : Obligations.Push9ToPush16 := by
  refine ⟨?_, ?_, ?_, ?_, ?_, ?_, ?_, ?_⟩ <;>
    exact pushRule_of_immLen (by decide) (fun _ => rfl) (fun _ => rfl)

/-- Settles O33: PUSH17 to PUSH24 hold an immediate of 17 to 24 bytes. -/
theorem push17ToPush24 : Obligations.Push17ToPush24 := by
  refine ⟨?_, ?_, ?_, ?_, ?_, ?_, ?_, ?_⟩ <;>
    exact pushRule_of_immLen (by decide) (fun _ => rfl) (fun _ => rfl)

/-- Settles O34: PUSH25 to PUSH32 hold an immediate of 25 to 32 bytes. -/
theorem push25ToPush32 : Obligations.Push25ToPush32 := by
  refine ⟨?_, ?_, ?_, ?_, ?_, ?_, ?_, ?_⟩ <;>
    exact pushRule_of_immLen (by decide) (fun _ => rfl) (fun _ => rfl)

/-- Settles O35: the step is the push of `MemRead`, which tests truncation and then the depth. -/
theorem pushStepReadsTheImmediateFromCode : Obligations.PushStepReadsTheImmediateFromCode := by
  intro s n hs hpc hn hn32 hop
  refine ⟨memRead_lt s (s.pc + 1) n, ?_⟩
  rw [step_of_push hs hpc hn hn32 hop]
  split
  · next hl => exact pushImm_truncated _ hl
  · next hl =>
    have hle := Nat.le_of_not_lt hl
    split
    · next hfull => exact pushImm_of_full _ hle (s.full_iff.2 hfull)
    · next hroom => exact pushImm_of_not_full _ hle (s.full_eq_false_iff.2 hroom)

/-- Settles O29: POP's meaning is the discard of one Word, which wants a Word. -/
theorem popDiscardsTheTop : Obligations.PopDiscardsTheTop :=
  ⟨⟨rfl, fun tail => decode_encode_append tail (i := .pop) rfl⟩,
    fun _ _ _ h => discard_cons h, fun _ h => discard_underflow h⟩

/-- Settles O30: PUSH0's meaning is the push of the constant 0, which wants room. -/
theorem push0PushesZero : Obligations.Push0PushesZero :=
  ⟨⟨rfl, fun tail => decode_encode_append tail (i := .push0) rfl⟩,
    fun s hroom => pushConst_of_not_full 0 (s.full_eq_false_iff.2 hroom),
    fun s hfull => pushConst_of_full 0 (s.full_iff.2 hfull)⟩

end Sys2Proof.Claims
end

section
/-! PROOF. The ALU functions of the arithmetic instructions in terms of Lean's words and integers, each stated once. -/

namespace Sys2Proof.Machine

/-! ### Wrapping -/

/-- Wrapping the unsigned reading of a Word gives the Word (R9). -/
theorem wrap_toNat (a : Word) : wrap (a.toNat : Int) = a := by
  rw [wrap_natCast, BitVec.ofNat_toNat, BitVec.setWidth_eq]

/-- Wrapping the signed reading of a Word gives the Word (R10). -/
theorem wrap_toInt (a : Word) : wrap a.toInt = a :=
  BitVec.ofInt_toInt

theorem wrap_add (x y : Int) : wrap (x + y) = wrap x + wrap y :=
  BitVec.ofInt_add x y

theorem wrap_mul (x y : Int) : wrap (x * y) = wrap x * wrap y :=
  BitVec.ofInt_mul x y

theorem wrap_sub (x y : Int) : wrap (x - y) = wrap x - wrap y := by
  rw [Int.sub_eq_add_neg, wrap_add, BitVec.sub_eq_add_neg, wrap, wrap, wrap, BitVec.ofInt_neg]

/-- A negative difference and the difference with 2^256 added wrap to one Word (R142). -/
theorem wrap_add_two_pow (z : Int) : wrap (z + 2 ^ 256) = wrap z :=
  (wrap_add z (2 ^ 256)).trans (BitVec.add_zero (wrap z))

/-! ### ADD, MUL and SUB are the ring operations of the Words -/

theorem aluAdd_eq_add (a b : Word) : aluAdd a b = a + b := by
  rw [aluAdd, wrap_add, wrap_toNat, wrap_toNat]

theorem aluMul_eq_mul (a b : Word) : aluMul a b = a * b := by
  rw [aluMul, wrap_mul, wrap_toNat, wrap_toNat]

theorem aluSub_eq_sub (a b : Word) : aluSub a b = a - b := by
  rw [aluSub, wrap_sub, wrap_toNat, wrap_toNat]

/-! ### EXP -/

/-- Square-and-multiply is the power of the ring of Words, given one turn for each bit of the exponent. -/
theorem powWrap_eq_pow {fuel : Nat} (base : Word) {e : Nat} (h : e < 2 ^ fuel) : powWrap fuel base e = base ^ e := by
  induction fuel generalizing base e with
  | zero =>
    obtain rfl : e = 0 := Nat.lt_one_iff.1 h
    rfl
  | succ fuel ih =>
    have hhalf : powWrap fuel (base * base) (e / 2) = base ^ (2 * (e / 2)) := by
      rw [ih _ (by omega), ← pow_two, ← pow_mul]
    rw [powWrap, hhalf, ← pow_succ']
    split
    · next hzero => rw [hzero, pow_zero]
    · split
      · next hodd => rw [show 2 * (e / 2) + 1 = e by omega]
      · next heven => rw [show 2 * (e / 2) = e by omega]

theorem aluExp_eq_pow (a b : Word) : aluExp a b = a ^ b.toNat :=
  powWrap_eq_pow a b.isLt

/-- The power of the ring of Words is the exact power, wrapped (R149). -/
theorem pow_eq_ofNat (a : Word) (n : Nat) : a ^ n = BitVec.ofNat 256 (a.toNat ^ n) := by
  induction n with
  | zero => rfl
  | succ n ih => rw [BitVec.pow_succ, ih, Nat.pow_succ, BitVec.ofNat_mul, BitVec.ofNat_toNat, BitVec.setWidth_eq]

/-! ### Signed quotient and remainder -/

theorem aluSdiv_of_ne_zero (a : Word) {b : Word} (h : b ≠ 0) : aluSdiv a b = wrap (a.toInt.tdiv b.toInt) := by
  rw [aluSdiv, if_neg h, sgn_eq_toInt, sgn_eq_toInt, tdiv_eq]

theorem aluSmod_of_ne_zero (a : Word) {b : Word} (h : b ≠ 0) : aluSmod a b = wrap (a.toInt.tmod b.toInt) := by
  rw [aluSmod, if_neg h, sgn_eq_toInt, sgn_eq_toInt, trem_eq]

/-- The truncated remainder has the dividend's sign and the magnitude of the remainder of the magnitudes (R146). -/
theorem tmod_eq_sign_mul (x y : Int) : x.tmod y = x.sign * (x.natAbs % y.natAbs : Nat) := by
  rw [← Int.natAbs_tmod]
  by_cases h : y ∣ x
  · rw [Int.dvd_iff_tmod_eq_zero.1 h, Int.natAbs_zero, Int.natCast_zero, Int.mul_zero]
  · have hsign : (x.tmod y).sign = x.sign := by rw [Int.sign_tmod, if_neg h]
    rw [← hsign, Int.sign_mul_natAbs]

/-- The remainder of a dividend that is not positive is not positive (R155). -/
theorem tmod_nonpos {x : Int} (y : Int) (hx : x ≤ 0) : x.tmod y ≤ 0 := by
  have := Int.tmod_nonneg y (Int.neg_nonneg_of_nonpos hx)
  rwa [Int.neg_tmod, Int.neg_nonneg] at this

/-- The quotient of a dividend that is not positive by a divisor that is not negative is not positive (R155). -/
theorem tdiv_nonpos_of_nonpos_of_nonneg {x y : Int} (hx : x ≤ 0) (hy : 0 ≤ y) : x.tdiv y ≤ 0 := by
  have := Int.tdiv_nonneg (Int.neg_nonneg_of_nonpos hx) hy
  rwa [Int.neg_tdiv, Int.neg_nonneg] at this

/-- A truncated quotient of two numbers of a signed range leaves the range only for the least number over -1 (R155): a
divisor of magnitude 2 or more at least halves the dividend. -/
theorem tdiv_out_of_range_iff {m x y : Int} (hlo : -m ≤ x) (hhi : x < m) (hy : y ≠ 0) :
    (x.tdiv y < -m ∨ m ≤ x.tdiv y) ↔ x = -m ∧ y = -1 := by
  constructor
  · intro hout
    have hunit : y.natAbs < 2 := by
      by_contra hge
      have hq : (x.tdiv y).natAbs = x.natAbs / y.natAbs := Int.natAbs_tdiv x y
      have hhalf : x.natAbs / y.natAbs ≤ x.natAbs / 2 := Nat.div_le_div_left (Nat.le_of_not_lt hge) Nat.two_pos
      omega
    obtain rfl | rfl : y = 1 ∨ y = -1 := by omega
    · rw [Int.tdiv_one] at hout
      omega
    · rw [Int.tdiv_neg, Int.tdiv_one] at hout
      omega
  · rintro ⟨rfl, rfl⟩
    rw [Int.tdiv_neg, Int.tdiv_one, Int.neg_neg]
    exact .inr le_rfl

/-! ### SIGNEXTEND -/

theorem aluSignextend_of_le {a : Word} (b : Word) (h : 31 ≤ a.toNat) : aluSignextend a b = b := by
  rw [aluSignextend, if_pos h]

/-- The low `k` bits, widened: every bit from `k` up is a copy of bit `k - 1`. -/
theorem toNat_signExtend_setWidth {w k v : Nat} (x : BitVec w) (hk : 0 < k) (hv : k ≤ v) :
    ((x.setWidth k).signExtend v).toNat = x.toNat % 2 ^ k + if x.getLsbD (k - 1) then 2 ^ v - 2 ^ k else 0 := by
  have hlt : x.toNat % 2 ^ k < 2 ^ v := (Nat.mod_lt _ (Nat.two_pow_pos k)).trans_le (Nat.pow_le_pow_right Nat.two_pos hv)
  rw [BitVec.toNat_signExtend, BitVec.toNat_setWidth, BitVec.toNat_setWidth, Nat.mod_eq_of_lt hlt, BitVec.msb_setWidth,
    decide_eq_true hk, Bool.true_and]

/-- Below 31 the low `a + 1` bytes are widened as a signed number (R151). -/
theorem aluSignextend_of_lt {a : Word} (b : Word) (h : a.toNat < 31) :
    aluSignextend a b = (b.setWidth (8 * (a.toNat + 1))).signExtend 256 := by
  have hnat := toNat_signExtend_setWidth b (k := 8 * (a.toNat + 1)) (v := 256) (by omega) (by omega)
  have hof := BitVec.ofNat_toNat 256 ((b.setWidth (8 * (a.toNat + 1))).signExtend 256)
  rw [hnat, BitVec.setWidth_eq] at hof
  rw [aluSignextend, if_neg (Nat.not_le_of_lt h), ← hof]
  dsimp only
  rw [Nat.sub_add_cancel (by omega)]
  split <;> rfl

/-- The low bits of a sign-extended number are the number. -/
theorem setWidth_signExtend_of_le {w v : Nat} (x : BitVec w) (h : w ≤ v) : (x.signExtend v).setWidth w = x := by
  ext i hi
  rw [BitVec.getElem_setWidth, BitVec.getLsbD_eq_getElem (hi.trans_le h), BitVec.getElem_signExtend, dif_pos hi]

/-- The signed reading of the low `k` bits. -/
theorem toInt_setWidth_eq_ite {w k : Nat} (x : BitVec w) (hk : 0 < k) :
    (x.setWidth k).toInt = if x.toNat % 2 ^ k < 2 ^ (k - 1) then ((x.toNat % 2 ^ k : Nat) : Int)
      else ((x.toNat % 2 ^ k : Nat) : Int) - 2 ^ k := by
  have hpow : 2 ^ k = 2 * 2 ^ (k - 1) := by rw [mul_comm, pow_sub_one_mul hk.ne']
  rw [BitVec.toInt_eq_toNat_cond, BitVec.toNat_setWidth, Int.natCast_pow, Nat.cast_ofNat]
  refine if_congr ?_ rfl rfl
  rw [hpow, Nat.mul_lt_mul_left Nat.two_pos]

/-! ### What an instruction of arity 2 or 3 answers -/

theorem exec_of_binary {i : Instr} {f : Word → Word → Word} {s : State} {a b : Word} {rest : List Word}
    (hexec : ∀ s, exec i s = binary f s) (hs : s.stack = a :: b :: rest) :
    exec i s = .next { s with pc := s.pc + 1, stack := f a b :: rest } :=
  (hexec s).trans (binary_cons f hs)

theorem exec_of_ternary {i : Instr} {f : Word → Word → Word → Word} {s : State} {a b c : Word} {rest : List Word}
    (hexec : ∀ s, exec i s = ternary f s) (hs : s.stack = a :: b :: c :: rest) :
    exec i s = .next { s with pc := s.pc + 1, stack := f a b c :: rest } :=
  (hexec s).trans (ternary_cons f hs)

end Sys2Proof.Machine
end

section
/-! PROOF. The statements of the arithmetic family. -/

namespace Sys2Proof.Claims

open Sys2Proof.Machine

/-! ### The rule of each instruction -/

/-- An instruction without immediate whose meaning is an ALU function of two Words follows the rule of arity 2 (R85). -/
theorem binaryRule_of_exec {i : Instr} {op : Byte} {f g : Word → Word → Word} (henc : encode i = [op])
    (hwf : i.wf = true) (hexec : ∀ s, exec i s = binary g s) (hg : ∀ a b, g a b = f a b) : BinaryRule i op f := by
  refine ⟨⟨henc, fun tail => ?_⟩, fun s a b rest hs => ?_, fun s hs => ?_⟩
  · have hdecode := decode_encode_append tail hwf
    rwa [henc] at hdecode
  · rw [exec_of_binary hexec hs, hg]
  · exact (hexec s).trans (binary_underflow g hs)

/-- An instruction without immediate whose meaning is an ALU function of three Words follows the rule of arity 3 (R85). -/
theorem ternaryRule_of_exec {i : Instr} {op : Byte} {f g : Word → Word → Word → Word} (henc : encode i = [op])
    (hwf : i.wf = true) (hexec : ∀ s, exec i s = ternary g s) (hg : ∀ a b c, g a b c = f a b c) :
    TernaryRule i op f := by
  refine ⟨⟨henc, fun tail => ?_⟩, fun s a b c rest hs => ?_, fun s hs => ?_⟩
  · have hdecode := decode_encode_append tail hwf
    rwa [henc] at hdecode
  · rw [exec_of_ternary hexec hs, hg]
  · exact (hexec s).trans (ternary_underflow g hs)

/-- Settles O16: a nonzero divisor leaves the truncated quotient of the signed readings. -/
theorem sdivTruncatesTowardZero : Obligations.SdivTruncatesTowardZero := by
  refine binaryRule_of_exec rfl rfl (fun _ => rfl) fun a b => ?_
  split
  · next hb => rw [aluSdiv, if_pos hb]
  · next hb => exact aluSdiv_of_ne_zero a hb

/-- Settles O18: the truncated remainder is the dividend's sign times the remainder of the magnitudes. -/
theorem smodFollowsTheDividendsSign : Obligations.SmodFollowsTheDividendsSign := by
  refine binaryRule_of_exec rfl rfl (fun _ => rfl) fun a b => ?_
  split
  · next hb => rw [aluSmod, if_pos hb]
  · next hb => rw [aluSmod_of_ne_zero a hb, tmod_eq_sign_mul, wrap]

/-- Settles O21: square-and-multiply over 256 bits is the power of the ring of Words. -/
theorem expIsTheWrappedPower : Obligations.ExpIsTheWrappedPower :=
  binaryRule_of_exec rfl rfl (fun _ => rfl) fun a b => (aluExp_eq_pow a b).trans (pow_eq_ofNat a b.toNat)

/-- Settles O22, by the two cases of the selector. -/
theorem signextendWidensTheLowBytes : Obligations.SignextendWidensTheLowBytes := by
  refine binaryRule_of_exec rfl rfl (fun _ => rfl) fun a b => ?_
  split
  · next ha => exact aluSignextend_of_le b ha
  · next ha => exact aluSignextend_of_lt b (Nat.lt_of_not_le ha)

/-- Settles O12: the sum of the unsigned readings is a natural number. -/
theorem addGivesTheLow256BitsOfTheSum : Obligations.AddGivesTheLow256BitsOfTheSum :=
  binaryRule_of_exec rfl rfl (fun _ => rfl) fun a b => wrap_natCast (a.toNat + b.toNat)

/-- Settles O13: the product of the unsigned readings is a natural number. -/
theorem mulGivesTheLow256BitsOfTheProduct : Obligations.MulGivesTheLow256BitsOfTheProduct :=
  binaryRule_of_exec rfl rfl (fun _ => rfl) fun a b => wrap_natCast (a.toNat * b.toNat)

/-- Settles O14: adding 2^256 to a negative difference leaves its Word. -/
theorem subTakesTheSecondFromTheTop : Obligations.SubTakesTheSecondFromTheTop := by
  refine binaryRule_of_exec rfl rfl (fun _ => rfl) fun a b => ?_
  split
  · exact (wrap_add_two_pow _).symm
  · rfl

/-- Settles O15: the floor of the unsigned quotient is a natural number. -/
theorem divIsTheUnsignedFloorOrZero : Obligations.DivIsTheUnsignedFloorOrZero :=
  binaryRule_of_exec rfl rfl (fun _ => rfl) fun a b => by rw [aluDiv, wrap_natCast]

/-- Settles O17: the unsigned remainder is a natural number. -/
theorem modIsTheUnsignedRemainderOrZero : Obligations.ModIsTheUnsignedRemainderOrZero :=
  binaryRule_of_exec rfl rfl (fun _ => rfl) fun a b => by rw [aluMod, wrap_natCast]

/-- Settles O19: the Word of the sum reads as the sum modulo 2^256. -/
theorem addmodWrapsTheSumFirst : Obligations.AddmodWrapsTheSumFirst :=
  ternaryRule_of_exec rfl rfl (fun _ => rfl) fun a b c => by
    rw [aluAddmod, wrap_natCast, ← Int.natCast_add, wrap_natCast, BitVec.toNat_ofNat]

/-- Settles O20: the exact product modulo `c` is a natural number. -/
theorem mulmodReducesTheFullProduct : Obligations.MulmodReducesTheFullProduct :=
  ternaryRule_of_exec rfl rfl (fun _ => rfl) fun a b c => by rw [aluMulmod, wrap_natCast]

/-! ### Commutativity -/

/-- An ALU function that exchanges two operands gives the instruction one answer for both orders. -/
theorem exec_swap_of_binary {i : Instr} {f : Word → Word → Word} {a b : Word} (hexec : ∀ s, exec i s = binary f s)
    (h : f a b = f b a) (s : State) (rest : List Word) :
    exec i (withOperands s (a :: b :: rest)) = exec i (withOperands s (b :: a :: rest)) := by
  rw [exec_of_binary hexec rfl, exec_of_binary hexec rfl, h]
  rfl

theorem exec_swap_of_ternary {i : Instr} {f : Word → Word → Word → Word} {a b c : Word}
    (hexec : ∀ s, exec i s = ternary f s) (h : f a b c = f b a c) (s : State) (rest : List Word) :
    exec i (withOperands s (a :: b :: c :: rest)) = exec i (withOperands s (b :: a :: c :: rest)) := by
  rw [exec_of_ternary hexec rfl, exec_of_ternary hexec rfl, h]
  rfl

/-- An ALU function that tells the orders of 1 and 2 apart makes the answers differ in every state: their top Words do. -/
theorem exists_exec_swap_ne {i : Instr} {f : Word → Word → Word} (hexec : ∀ s, exec i s = binary f s)
    (h : f 1 2 ≠ f 2 1) : ∃ a b : Word, ∀ (s : State) (rest : List Word),
      exec i (withOperands s (a :: b :: rest)) ≠ exec i (withOperands s (b :: a :: rest)) := by
  refine ⟨1, 2, fun s rest heq => ?_⟩
  rw [exec_of_binary hexec rfl, exec_of_binary hexec rfl] at heq
  have hstack : f 1 2 :: rest = f 2 1 :: rest := congrArg State.stack (Host.Outcome.next.inj heq)
  exact h (List.cons.inj hstack).1

/-- Settles O54: the ring and equality commute; each of the other eleven tells the orders of 1 and 2 apart. -/
theorem commutativeInstructions : Obligations.CommutativeInstructions := by
  refine ⟨fun s a b rest => ?_, fun s a b c rest => ?_, ?_⟩ <;>
    simp only [List.forall_mem_cons, List.not_mem_nil, false_implies, implies_true, and_true]
  · have hadd : aluAdd a b = aluAdd b a := by rw [aluAdd_eq_add, aluAdd_eq_add, BitVec.add_comm]
    have hmul : aluMul a b = aluMul b a := by rw [aluMul_eq_mul, aluMul_eq_mul, BitVec.mul_comm]
    have heq : aluEq a b = aluEq b a := by rw [aluEq, aluEq, decide_eq_decide.2 eq_comm]
    exact ⟨exec_swap_of_binary (fun _ => rfl) hadd s rest, exec_swap_of_binary (fun _ => rfl) hmul s rest,
      exec_swap_of_binary (fun _ => rfl) heq s rest⟩
  · have haddmod : aluAddmod a b c = aluAddmod b a c := by rw [aluAddmod, aluAddmod, Int.add_comm]
    have hmulmod : aluMulmod a b c = aluMulmod b a c := by rw [aluMulmod, aluMulmod, Nat.mul_comm]
    exact ⟨exec_swap_of_ternary (fun _ => rfl) haddmod s rest, exec_swap_of_ternary (fun _ => rfl) hmulmod s rest⟩
  · exact ⟨exists_exec_swap_ne (f := aluSub) (fun _ => rfl) (by decide),
      exists_exec_swap_ne (f := aluDiv) (fun _ => rfl) (by decide),
      exists_exec_swap_ne (f := aluSdiv) (fun _ => rfl) (by decide),
      exists_exec_swap_ne (f := aluMod) (fun _ => rfl) (by decide),
      exists_exec_swap_ne (f := aluSmod) (fun _ => rfl) (by decide),
      exists_exec_swap_ne (f := aluExp) (fun _ => rfl) (by decide),
      exists_exec_swap_ne (f := aluSignextend) (fun _ => rfl) (by decide),
      exists_exec_swap_ne (f := aluLt) (fun _ => rfl) (by decide),
      exists_exec_swap_ne (f := aluGt) (fun _ => rfl) (by decide),
      exists_exec_swap_ne (f := aluSlt) (fun _ => rfl) (by decide),
      exists_exec_swap_ne (f := aluSgt) (fun _ => rfl) (by decide)⟩

/-! ### What follows from the rules -/

/-- An ALU function that answers 0 for a zero divisor makes the instruction replace its operands by 0. -/
theorem exec_of_binary_zero {i : Instr} {f : Word → Word → Word} {a : Word} (hexec : ∀ s, exec i s = binary f s)
    (h : f a 0 = 0) (s : State) (rest : List Word) :
    exec i (withOperands s (a :: 0 :: rest)) = .next { withOperands s (0 :: rest) with pc := s.pc + 1 } := by
  rw [exec_of_binary hexec rfl, h]
  rfl

theorem exec_of_ternary_zero {i : Instr} {f : Word → Word → Word → Word} {a b : Word}
    (hexec : ∀ s, exec i s = ternary f s) (h : f a b 0 = 0) (s : State) (rest : List Word) :
    exec i (withOperands s (a :: b :: 0 :: rest)) = .next { withOperands s (0 :: rest) with pc := s.pc + 1 } := by
  rw [exec_of_ternary hexec rfl, h]
  rfl

/-- Settles O55: each ALU function tests its divisor or modulus for 0 first. -/
theorem zeroDivisorsGiveZero : Obligations.ZeroDivisorsGiveZero := by
  refine ⟨fun s a rest => ?_, fun s a b rest => ?_⟩ <;>
    simp only [List.forall_mem_cons, List.not_mem_nil, false_implies, implies_true, and_true]
  · have hdiv : aluDiv a 0 = 0 := if_pos rfl
    have hsdiv : aluSdiv a 0 = 0 := if_pos rfl
    have hmod : aluMod a 0 = 0 := if_pos rfl
    have hsmod : aluSmod a 0 = 0 := if_pos rfl
    exact ⟨exec_of_binary_zero (fun _ => rfl) hdiv s rest, exec_of_binary_zero (fun _ => rfl) hsdiv s rest,
      exec_of_binary_zero (fun _ => rfl) hmod s rest, exec_of_binary_zero (fun _ => rfl) hsmod s rest⟩
  · have haddmod : aluAddmod a b 0 = 0 := if_pos rfl
    have hmulmod : aluMulmod a b 0 = 0 := if_pos rfl
    exact ⟨exec_of_ternary_zero (fun _ => rfl) haddmod s rest, exec_of_ternary_zero (fun _ => rfl) hmulmod s rest⟩

/-- Settles O56: `q` and `r` are the truncated quotient and remainder of the signed readings. -/
theorem signsOfQuotientAndRemainder : Obligations.SignsOfQuotientAndRemainder := by
  intro s a b rest hs hb
  have hy : b.toInt ≠ 0 := fun h => hb (BitVec.toInt_inj.1 h)
  refine ⟨a.toInt.tdiv b.toInt, a.toInt.tmod b.toInt, ?_, ?_, (Int.tdiv_mul_add_tmod _ _).symm, ?_,
    fun hx hy => ⟨Int.tdiv_nonneg hx hy.le, Int.tmod_nonneg _ hx⟩,
    fun hx hy => ⟨Int.tdiv_nonpos_of_nonneg_of_nonpos hx hy.le, Int.tmod_nonneg _ hx⟩,
    fun hx hy => ⟨tdiv_nonpos_of_nonpos_of_nonneg hx.le hy.le, tmod_nonpos _ hx.le⟩,
    fun hx hy => ⟨Int.tdiv_nonneg_of_nonpos_of_nonpos hx.le hy.le, tmod_nonpos _ hx.le⟩,
    tdiv_out_of_range_iff a.le_toInt BitVec.toInt_lt hy, ?_⟩
  · rw [exec_of_binary (fun _ => rfl) hs, aluSdiv_of_ne_zero a hb, wrap]
  · rw [exec_of_binary (fun _ => rfl) hs, aluSmod_of_ne_zero a hb, wrap]
  · rw [Int.natAbs_tmod]
    exact Nat.mod_lt _ (Int.natAbs_pos.2 hy)
  · intro hx hy
    rw [hx, hy]
    exact ⟨rfl, rfl⟩

/-- Settles O57: `wrap` carries sums, differences and products of signed readings to the ring of Words. -/
theorem signedAndUnsignedReadingsAgree : Obligations.SignedAndUnsignedReadingsAgree := by
  intro s a b rest hs
  have hadd : aluAdd a b = wrap (a.toInt + b.toInt) := by rw [aluAdd_eq_add, wrap_add, wrap_toInt, wrap_toInt]
  have hsub : aluSub a b = wrap (a.toInt - b.toInt) := by rw [aluSub_eq_sub, wrap_sub, wrap_toInt, wrap_toInt]
  have hmul : aluMul a b = wrap (a.toInt * b.toInt) := by rw [aluMul_eq_mul, wrap_mul, wrap_toInt, wrap_toInt]
  have hneg : aluSub a b = aluAdd a (aluSub 0 b) := by
    rw [aluSub_eq_sub, aluAdd_eq_add, aluSub_eq_sub, zero_sub, sub_eq_add_neg]
  refine ⟨?_, ?_, ?_, aluSub 0 b, _, exec_of_binary (f := aluSub) (fun _ => rfl) rfl, rfl, ?_⟩
  · rw [exec_of_binary (fun _ => rfl) hs, hadd, wrap]
  · rw [exec_of_binary (fun _ => rfl) hs, hsub, wrap]
  · rw [exec_of_binary (fun _ => rfl) hs, hmul, wrap]
  · rw [exec_of_binary (fun _ => rfl) hs, exec_of_binary (f := aluAdd) (fun _ => rfl) rfl, hneg]
    rfl

/-- Settles O58: widening keeps the signed reading of the low bytes, and the bytes. -/
theorem signextendIsIdempotentAndSigned : Obligations.SignextendIsIdempotentAndSigned := by
  intro s a b rest hs ha
  have hlt : a.toNat < 31 := Nat.lt_succ_of_le ha
  have hwidth : 8 * (a.toNat + 1) ≤ 256 := by omega
  have hagain : aluSignextend a (aluSignextend a b) = aluSignextend a b := by
    rw [aluSignextend_of_lt _ hlt, aluSignextend_of_lt b hlt, setWidth_signExtend_of_le _ hwidth]
  refine ⟨aluSignextend a b, exec_of_binary (fun _ => rfl) hs, ?_, ?_⟩
  · rw [exec_of_binary (f := aluSignextend) (fun _ => rfl) rfl, hagain]
    rfl
  · rw [aluSignextend_of_lt b hlt, BitVec.toInt_signExtend_of_le hwidth, toInt_setWidth_eq_ite b (by omega)]

end Sys2Proof.Claims
end

section
/-! PROOF. The ALU functions of SLT and SGT in terms of Lean's signed reading of a Word. -/

namespace Sys2Proof.Machine

theorem aluSlt_eq (a b : Word) : aluSlt a b = if a.toInt < b.toInt then 1 else 0 := by
  rw [aluSlt, sgn_eq_toInt, sgn_eq_toInt, boolWord_decide]

/-- SGT is SLT of the operands in the other order (R174). -/
theorem aluSgt_eq_aluSlt_swap (a b : Word) : aluSgt a b = aluSlt b a := rfl

end Sys2Proof.Machine
end

section
/-! PROOF. The statements of the comparison family. -/

namespace Sys2Proof.Claims

open Sys2Proof.Machine

/-- An instruction without immediate whose meaning is an ALU function of one Word follows the rule of arity 1 (R85). -/
theorem unaryRule_of_exec {i : Instr} {op : Byte} {f g : Word → Word} (henc : encode i = [op]) (hwf : i.wf = true)
    (hexec : ∀ s, exec i s = unary g s) (hg : ∀ a, g a = f a) : UnaryRule i op f := by
  refine ⟨⟨henc, fun tail => ?_⟩, fun s a rest hs => ?_, fun s hs => ?_⟩
  · have hdecode := decode_encode_append tail hwf
    rwa [henc] at hdecode
  · rw [← hg]
    exact (hexec s).trans (unary_cons g hs)
  · exact (hexec s).trans (unary_underflow g hs)

/-- Settles O25: the model's signed reading is Lean's. -/
theorem sltComparesSigned : Obligations.SltComparesSigned :=
  binaryRule_of_exec rfl rfl (fun _ => rfl) aluSlt_eq

/-- Settles O26: `a > b` is `b < a`, which SLT decides. -/
theorem sgtComparesSigned : Obligations.SgtComparesSigned :=
  binaryRule_of_exec rfl rfl (fun _ => rfl) fun a b => (aluSgt_eq_aluSlt_swap a b).trans (aluSlt_eq b a)

/-- Settles O27: Words are equal exactly when their signed readings are, so both rules have one truth value. -/
theorem eqComparesAll256Bits : Obligations.EqComparesAll256Bits := by
  have hraw : ∀ a b, aluEq a b = truth (a = b) := fun a b => boolWord_decide (a = b)
  have hsigned : ∀ a b : Word, truth (a = b) = truth (a.toInt = b.toInt) := fun a b =>
    if_congr BitVec.toInt_inj.symm rfl rfl
  exact ⟨binaryRule_of_exec rfl rfl (fun _ => rfl) hraw,
    binaryRule_of_exec rfl rfl (fun _ => rfl) fun a b => (hraw a b).trans (hsigned a b)⟩

/-- Settles O23: the model compares the unsigned readings. -/
theorem ltComparesUnsigned : Obligations.LtComparesUnsigned :=
  binaryRule_of_exec rfl rfl (fun _ => rfl) fun a b => boolWord_decide (a.toNat < b.toNat)

/-- Settles O24: the model compares the unsigned readings. -/
theorem gtComparesUnsigned : Obligations.GtComparesUnsigned :=
  binaryRule_of_exec rfl rfl (fun _ => rfl) fun a b => boolWord_decide (a.toNat > b.toNat)

/-- Settles O28: the model tests the whole Word. -/
theorem iszeroTestsForZero : Obligations.IszeroTestsForZero :=
  unaryRule_of_exec rfl rfl (fun _ => rfl) fun a => boolWord_decide (a = 0)

end Sys2Proof.Claims
end

section
/-! PROOF. The failures: the exact condition of each one, that a step raises a failure where its condition holds, and
that it raises none elsewhere. -/

namespace Sys2Proof

open Sys2Proof.Claims

/-! ### The columns of the opcode table, by opcode byte -/

/-- The arity of an instruction is the one of its opcode byte (R83). -/
theorem arityOf_opcodeOf (i : Instr) : arityOf (opcodeOf i).toNat = i.pops := by
  cases i <;> rfl

/-- No unknown byte has an arity (R64, R83). -/
theorem arityOf_of_isUnknown {b : Byte} (h : IsUnknown b) : arityOf b.toNat = 0 := by
  rw [arityOf, if_neg, if_neg, if_neg] <;> omega

/-- Every byte outside the four unknown ranges is the opcode of an instruction (R63, R64). -/
theorem exists_opcodeOf_of_not_isUnknown {b : Byte} (h : ¬ IsUnknown b) : ∃ i, b = opcodeOf i := by
  obtain ⟨i, hi⟩ := Option.isSome_iff_exists.1 (instrOf_isSome_of_not_isUnknown 0 h)
  exact ⟨i, (instrOf_some hi).1⟩

/-- An instruction that pushes without popping is PUSH0 or a PUSHn (R63). -/
theorem opcodeOf_bounds_of_push {i : Instr} (hp : i.pops = 0) (hq : i.pushes = 1) :
    0x5f ≤ (opcodeOf i).toNat ∧ (opcodeOf i).toNat ≤ 0x7f := by
  cases i with
  | stop => cases hq
  | add | mul | sub | div | sdiv | mod | smod | addmod | mulmod | exp | signextend | lt | gt | slt | sgt | eq
  | iszero | pop => cases hp
  | _ => rw [opcodeOf]; decide

/-- PUSH0 and PUSHn have `op − 0x5f` immediate bytes (R60, R101). -/
theorem immLen_eq_of_push {i : Instr} (h : 0x5f ≤ (opcodeOf i).toNat ∧ (opcodeOf i).toNat ≤ 0x7f) :
    i.immLen = (opcodeOf i).toNat - 0x5f := by
  rw [← immCount_opcodeOf, immCount]
  split <;> omega

/-- Without immediate bytes the immediate is 0 (R62). -/
theorem imm_eq_zero_of_immLen {i : Instr} : i.immLen = 0 → i.imm = 0 := by
  cases i <;> simp [Instr.immLen, Instr.imm]

end Sys2Proof

namespace Sys2Proof.Machine

open Sys2Proof.Claims

/-! ### The exact conditions -/

/-- The exact condition of a failure on the byte at `pc`, which is below LEN (R181 to R184); no other cause has one. -/
def State.Raises (s : State) : Cause → Prop
  | .truncatedPush => 0x60 ≤ opAt s ∧ opAt s ≤ 0x7f ∧ s.len < s.pc + 1 + (opAt s - 0x5f)
  | .stackUnderflow => s.stack.length < arityOf (opAt s)
  | .stackOverflow => s.cfg.stackDepth = some s.stack.length ∧ 0x5f ≤ opAt s ∧ opAt s ≤ 0x7f ∧
      s.pc + 1 + (opAt s - 0x5f) ≤ s.len
  | .unknownOpcode => IsUnknown (byteAt s s.pc) ∧ s.cfg.unknownOpcodeFails = true
  | .none | .stop | .endOfCode => False

/-- Only the four failures are raised (R180). -/
theorem State.Raises.isFailure {s : State} {c : Cause} (h : s.Raises c) : c.isFailure = true := by
  cases c with
  | none | stop | endOfCode => exact h.elim
  | truncatedPush | stackUnderflow | stackOverflow | unknownOpcode => rfl

theorem Cause.isFailure_iff (c : Cause) : c.isFailure = true ↔
    c = .truncatedPush ∨ c = .stackUnderflow ∨ c = .stackOverflow ∨ c = .unknownOpcode := by
  cases c <;> decide

/-! ### Where the condition holds, the failure is raised -/

variable {s t : State}

/-- The step at the opcode of an instruction without immediate is that instruction (R80, R83). -/
theorem step_of_opcode {i : Instr} (hs : Ready s) (hpc : s.pc < s.len) (hi : i.immLen = 0)
    (hop : byteAt s s.pc = opcodeOf i) : step s = exec i s := by
  have henc : encode i = [opcodeOf i] := by rw [encode, hi, beBytes]
  have hwf : i.wf = true := by rw [Instr.wf_iff, imm_eq_zero_of_immLen hi, hi]; decide
  refine stepRunsTheEncodingAtPc s i hs hwf (by rwa [henc]) fun k b hk => ?_
  rw [henc, List.getElem?_singleton] at hk
  split at hk
  · next h0 =>
    cases hk
    rw [h0]
    exact hop
  · cases hk

/-- A PUSHn whose bytes are missing is the failure (R181). -/
theorem step_of_raises_truncatedPush (hs : Ready s) (hpc : s.pc < s.len) (h : s.Raises .truncatedPush) :
    step s = .next (failed .truncatedPush s) := by
  obtain ⟨hlo, hhi, hl⟩ := h
  obtain ⟨-, hstep⟩ := pushStepReadsTheImmediateFromCode s (opAt s - 0x5f) hs hpc (by omega) (by omega) (by omega)
  rwa [if_pos hl] at hstep

/-- An arity above the depth is the failure: a byte that has an arity is an instruction without immediate (R182). -/
theorem step_of_raises_stackUnderflow (hs : Ready s) (hpc : s.pc < s.len) (h : s.Raises .stackUnderflow) :
    step s = .next (failed .stackUnderflow s) := by
  have hlt : s.stack.length < arityOf (byteAt s s.pc).toNat := h
  have hknown : ¬ IsUnknown (byteAt s s.pc) := fun hb => by
    rw [arityOf_of_isUnknown hb] at hlt
    exact Nat.not_lt_zero _ hlt
  obtain ⟨i, hop⟩ := exists_opcodeOf_of_not_isUnknown hknown
  rw [hop, arityOf_opcodeOf] at hlt
  rw [step_of_opcode hs hpc (immLen_of_pops_pos (Nat.zero_lt_of_lt hlt)) hop]
  exact (underflowIsTestedBeforeAnyPop i s).1 hlt

/-- PUSH0, or a PUSHn with all its bytes, at the depth limit is the failure (R183). -/
theorem step_of_raises_stackOverflow (hs : Ready s) (hpc : s.pc < s.len) (h : s.Raises .stackOverflow) :
    step s = .next (failed .stackOverflow s) := by
  obtain ⟨hfull, hlo, hhi, hl⟩ := h
  rcases Nat.eq_or_lt_of_le hlo with h0 | hlo
  · have hop : byteAt s s.pc = opcodeOf .push0 := BitVec.eq_of_toNat_eq h0.symm
    rw [step_of_opcode hs hpc rfl hop]
    exact push0PushesZero.2.2 s hfull
  · obtain ⟨-, hstep⟩ :=
      pushStepReadsTheImmediateFromCode s (opAt s - 0x5f) hs hpc (by omega) (by omega) (by omega)
    rwa [if_neg (Nat.not_lt.2 hl), if_pos hfull] at hstep

/-- An unknown byte under UNKNOWN_OPCODE_FAILS is the failure (R184). -/
theorem step_of_raises_unknownOpcode (hs : Ready s) (hpc : s.pc < s.len) (h : s.Raises .unknownOpcode) :
    step s = .next (failed .unknownOpcode s) := by
  obtain ⟨hb, hfails⟩ := h
  have hstep := unknownOpcodeIsANoOpOrAFailure s hs hpc hb
  rwa [if_pos hfails] at hstep

/-- Where the condition of a failure holds, the step of a ready state is that failure. -/
theorem step_of_raises {c : Cause} (hs : Ready s) (hpc : s.pc < s.len) (h : s.Raises c) :
    step s = .next (failed c s) := by
  cases c with
  | none | stop | endOfCode => exact h.elim
  | truncatedPush => exact step_of_raises_truncatedPush hs hpc h
  | stackUnderflow => exact step_of_raises_stackUnderflow hs hpc h
  | stackOverflow => exact step_of_raises_stackOverflow hs hpc h
  | unknownOpcode => exact step_of_raises_unknownOpcode hs hpc h

/-! ### A failure is raised only where its condition holds -/

/-- The ways a step of a RUNNING state ends: it goes on, it halts with success at the end of the code or at STOP, or it
raises a failure whose condition holds. -/
inductive StepEnd (s : State) : State → Prop where
  | goesOn {t : State} (hr : t.run = .running) (hc : t.cause = s.cause) : StepEnd s t
  | endOfCode : StepEnd s (s.halt true .endOfCode)
  | stop : StepEnd s (s.fetched.halt true .stop)
  | fails (c : Cause) (hpc : s.pc < s.len) (h : s.Raises c) : StepEnd s (failed c s)

/-- An instruction at `pc` fails only under the condition of its failure. -/
theorem ExecEffect.stepEnd {i : Instr} (h : ExecEffect i s t) (hr : s.run = .running) (hpc : s.pc < s.len)
    (hop : byteAt s s.pc = opcodeOf i) : StepEnd s t := by
  have hopAt : opAt s = (opcodeOf i).toNat := congrArg BitVec.toNat hop
  cases h with
  | underflow hd =>
    refine .fails .stackUnderflow hpc ?_
    rw [State.Raises, hopAt, arityOf_opcodeOf]
    exact hd
  | truncated hi hl =>
    have hrange := (immCount_pos_iff (opcodeOf i)).1 (by rwa [immCount_opcodeOf])
    refine .fails .truncatedPush hpc ?_
    rw [immLen_eq_of_push (by omega), ← hopAt] at hl
    exact ⟨by omega, by omega, hl⟩
  | overflow hp hq hl hfull =>
    have hrange := opcodeOf_bounds_of_push hp hq
    rw [immLen_eq_of_push hrange, ← hopAt] at hl
    exact .fails .stackOverflow hpc ⟨s.full_iff.1 hfull, by omega, by omega, by omega⟩
  | stop => exact .stop
  | completes => exact .goesOn hr rfl

/-- Every step of a RUNNING state ends in one of the ways of `StepEnd`. -/
theorem StepEffect.stepEnd (h : StepEffect s t) (hr : s.run = .running) : StepEnd s t := by
  cases h with
  | halted hh => cases hr.symm.trans hh
  | endOfCode => exact .endOfCode
  | instr i _ hpc hop he => exact he.stepEnd hr hpc hop
  | truncated _ hpc hl =>
    have hrange := (immCount_pos_iff (Memory.read s.code s.pc)).1 (by omega)
    rw [immCount_of_push hrange] at hl
    exact .fails .truncatedPush hpc ⟨hrange.1, hrange.2, hl⟩
  | unknownFails v _ hpc hnone hfails =>
    exact .fails .unknownOpcode hpc ⟨(instrOf_eq_none_iff _ v).1 hnone, hfails⟩
  | unknownSkips => exact .goesOn hr rfl

/-- From cause NONE a step ends with the cause of a failure exactly under the condition of that failure. -/
theorem cause_eq_iff_raises {c : Cause} (hs : Ready s) (hnone : s.cause = .none) (hc : c.isFailure = true)
    (h : step s = .next t) : t.cause = c ↔ s.pc < s.len ∧ s.Raises c := by
  constructor
  · rintro rfl
    cases (step_effect h).stepEnd hs.1 with
    | goesOn _ hcause => rw [hcause, hnone] at hc; cases hc
    | endOfCode | stop => cases hc
    | fails c hpc hraises => exact ⟨hpc, hraises⟩
  · rintro ⟨hpc, hraises⟩
    cases h.symm.trans (step_of_raises hs hpc hraises)
    rfl

/-! ### The step with an infinite STACK_DEPTH -/

/-- The state with STACK_DEPTH infinite and PC_WIDTH as it was. -/
def State.withoutStackLimit (s : State) : State :=
  { s with cfg := { s.cfg with stackDepth := none } }

theorem State.withoutStackLimit_cfg (s : State) : s.withoutStackLimit.cfg = { s.cfg with stackDepth := none } := rfl

/-- With an infinite STACK_DEPTH no step overflows (R36, R183). -/
theorem not_overflowed_of_stackDepth_none (hr : s.run = .running) (hd : s.cfg.stackDepth = none)
    (h : step s = .next t) : ¬ t.Overflowed := by
  rintro ⟨hhalt, hcause⟩
  cases (step_effect h).stepEnd hr with
  | goesOn hrun => cases hrun.symm.trans hhalt
  | endOfCode | stop => cases hcause
  | fails c _ hraises =>
    obtain rfl : c = .stackOverflow := hcause
    cases hd.symm.trans hraises.1

/-- States that agree without limits differ in the two limits only. -/
theorem eq_withoutStackLimit_of_unbounded {u : State} (h : unbounded u = unbounded t)
    (hcfg : u.cfg = t.withoutStackLimit.cfg) : u = t.withoutStackLimit := by
  cases u
  cases t
  simp only [unbounded, State.mk.injEq] at h
  obtain ⟨rfl, rfl, rfl, rfl, rfl, rfl, rfl, -⟩ := h
  cases hcfg
  rfl

/-- A step that does not overflow is the step with an infinite STACK_DEPTH: both become the same step once PC_WIDTH is
infinite as well (D3, R183). -/
theorem step_withoutStackLimit (hs : Ready s) (h : step s = .next t) (ht : t.cause ≠ .stackOverflow) :
    step s.withoutStackLimit = .next t.withoutStackLimit := by
  have hready : Ready s.withoutStackLimit := hs
  obtain ⟨u, hu⟩ := step_total_of_ready hready
  have hover : ¬ u.Overflowed := not_overflowed_of_stackDepth_none hready.1 rfl hu
  have hustep : step (unbounded s) = .next (unbounded u) :=
    step_unbounded (s := s.withoutStackLimit) hu hover
  have htstep : step (unbounded s) = .next (unbounded t) := step_unbounded h fun ho => ht ho.2
  have hsame : unbounded u = unbounded t := Host.Outcome.next.inj (hustep.symm.trans htstep)
  obtain ⟨-, -, hucfg⟩ := (step_effect hu).frame
  obtain ⟨-, -, htcfg⟩ := (step_effect h).frame
  have hcfg : u.cfg = t.withoutStackLimit.cfg := by
    rw [hucfg, State.withoutStackLimit_cfg, State.withoutStackLimit_cfg, htcfg]
  rw [hu, eq_withoutStackLimit_of_unbounded hsame hcfg]

end Sys2Proof.Machine
end

section
/-! PROOF. The statements of the exceptions family. -/

namespace Sys2Proof.Claims

open Sys2Proof.Machine

/-- Settles O41, from the exact condition of the failure; a PUSHn has at most 32 immediate bytes. -/
theorem truncatedPushExactlyWhenBytesAreMissing : Obligations.TruncatedPushExactlyWhenBytesAreMissing :=
  fun _ hs hnone => ⟨fun _ h => cause_eq_iff_raises hs hnone rfl h,
    fun hpc hlo hhi hl => ⟨step_of_raises_truncatedPush hs hpc ⟨hlo, hhi, hl⟩, by omega⟩⟩

/-- Settles O42, from the exact condition of the failure. -/
theorem stackUnderflowExactlyWhenArityExceedsDepth : Obligations.StackUnderflowExactlyWhenArityExceedsDepth :=
  fun _ hs hnone => ⟨fun _ h => cause_eq_iff_raises hs hnone rfl h,
    fun hpc hd => step_of_raises_stackUnderflow hs hpc hd⟩

/-- Settles O43, from the exact condition of the failure and the comparison with the step that has no stack limit. -/
theorem stackOverflowExactlyOnAPushAtTheLimit : Obligations.StackOverflowExactlyOnAPushAtTheLimit :=
  fun _ hs hnone => ⟨fun _ h => cause_eq_iff_raises hs hnone rfl h,
    fun hpc hfull hlo hhi hl => step_of_raises_stackOverflow hs hpc ⟨hfull, hlo, hhi, hl⟩,
    fun _ h ht => step_withoutStackLimit hs h ht⟩

/-- Settles O44, from the exact condition of the failure. -/
theorem unknownOpcodeFailsExactlyWhenEnabled : Obligations.UnknownOpcodeFailsExactlyWhenEnabled :=
  fun _ hs hnone => ⟨fun _ h => cause_eq_iff_raises hs hnone rfl h,
    fun hpc hb hfails => step_of_raises_unknownOpcode hs hpc ⟨hb, hfails⟩⟩

/-- Settles O45: of the ways a step ends, only a raised failure is a halt without success. -/
theorem failureEntryIsAHaltAndNothingElse : Obligations.FailureEntryIsAHaltAndNothingElse := by
  intro s t hr h hhalt hsuccess
  cases (step_effect h).stepEnd hr with
  | goesOn hrun => cases hrun.symm.trans hhalt
  | endOfCode | stop => cases hsuccess
  | fails c _ hraises => exact ⟨rfl, c.isFailure_iff.1 hraises.isFailure⟩

/-- Settles O46: each way a step halts has its cause and its success; the two optional failures want their parameter. -/
theorem successExactlyForStopAndEndOfCode : Obligations.SuccessExactlyForStopAndEndOfCode := by
  intro s t hr h hhalt
  cases (step_effect h).stepEnd hr with
  | goesOn hrun => cases hrun.symm.trans hhalt
  | endOfCode | stop => simp
  | fails c _ hraises =>
    cases c with
    | none | stop | endOfCode => exact hraises.elim
    | truncatedPush | stackUnderflow => simp [failed]
    | stackOverflow => simp [failed, hraises.1]
    | unknownOpcode => simp [failed, hraises.2]

end Sys2Proof.Claims
end

section
/-! PROOF. The statement of the family of the HALTED step. -/

namespace Sys2Proof.Claims

open Sys2Proof.Machine

/-- Settles O2, by the equation of a step in a HALTED state. -/
theorem haltedEngineStepsToItself : Obligations.HaltedEngineStepsToItself :=
  fun _ hhalted => step_of_halted hhalted

end Sys2Proof.Claims
end
